-- ==== Sys2Proof/Word.lean ====
section
/-! DEFINITION. The data value of the machine (00_scope.md R11): an unsigned 8-bit number. -/

namespace Sys2Proof

/-- A data value, a memory cell, a register or one byte of a binary slot (R6: XLEN = CELL = 8 bits). -/
abbrev Byte := BitVec 8

/-- A text token: a run of characters between whitespace (R88). -/
abbrev Token := List Char

/-- One line of a text program, without its terminator (R87). -/
abbrev Line := List Char

end Sys2Proof
end

