-- ==== Sys2Proof/Config.lean ====
section
/-! DEFINITION. The implementation parameters of 00_scope.md R6, in one place.
The opcode bytes and the operand layout, which R6 also lists, are the tables at the head of Decode.lean, where a
correction of one of these unaudited numbers (93_implementation_defined.md U4, U12) can be made. -/

namespace Sys2Proof.Config

/-- `N`, the number of memory cells. -/
abbrev numCells : Nat := 256

/-- `CELL`, the width of a memory cell in bits. -/
abbrev cellBits : Nat := 8

/-- `NREG`, the number of registers. -/
abbrev numRegs : Nat := 8

/-- `XLEN`, the width of a register and of every data value in bits. -/
abbrev xlen : Nat := 8

/-- `SLOT`, the size of a binary slot in bytes and the advance of the program counter (R72). -/
abbrev slot : Nat := 4

/-- `PC_START`, the program counter at the start of a binary run (R212). -/
abbrev pcStart : Nat := 0

/-- `LOAD_BASE`, the address of the first byte of a loaded image (R60). -/
abbrev loadBase : Nat := 0

/-- `RESET_REG`, the reset value of every register (R35). -/
abbrev resetReg : Byte := 0

/-- `RESET_MEM`, the reset value of every memory cell (R35), and so what an unlisted cell reads as. -/
abbrev resetMem : Byte := 0

/-- `RESET_VERBOSE`, the reset value of the verbose flag (R35). -/
abbrev resetVerbose : Bool := false

/-- Which operand of QMOV is the source (R159, 90_conflicts.md C1). -/
inductive QmovOrder where
  /-- The first operand is moved to the second. -/
  | sourceFirst
  /-- The second operand is moved to the first. -/
  | destinationFirst
deriving DecidableEq, Repr

/-- `QMOV_ORDER`: the spec's value is source-first (decision D22). -/
abbrev qmovOrder : QmovOrder := .sourceFirst

/-- `MAX_IF_DEPTH`: the spec sets no limit (R205, decision D31). -/
abbrev maxIfDepth : Option Nat := none

end Sys2Proof.Config
end

