-- ==== Sys2Proof/Syntax.lean ====
section
/-! DEFINITION. The instructions as data: one constructor of `Instr` for each of the 22 rows of
spec/opcode_table.json, the operand forms of 30_encoding.md R92 and R99, the assigned opcodes of R76, the text
mnemonics of R90, and the twelve error kinds of 60_exceptions.md R230 with the information each one carries.

A register operand is the whole byte of the slot (R78), so an `Instr` can name a register that does not exist: its
meaning then raises InvalidRegister. An address operand is a byte, so it is always inside Memory (R79). -/

namespace Sys2Proof

/-- The six comparison operators of IF (R102, R202). -/
inductive CmpOp where
  /-- `==` -/
  | eq
  /-- `!=` -/
  | ne
  /-- `>` -/
  | gt
  /-- `<` -/
  | lt
  /-- `>=` -/
  | ge
  /-- `<=` -/
  | le
deriving DecidableEq, Repr

/-- A place a value can be written to: MOV's destination (R152) and CLEAR's target (R164). -/
inductive Place where
  /-- `Rn` -/
  | reg (r : Byte)
  /-- `[addr]` -/
  | mem (a : Byte)
deriving DecidableEq, Repr

/-- A place a value can be read from: MOV's source (R152) and the right side of an IF condition (R201). -/
inductive Source where
  /-- `Rn` -/
  | reg (r : Byte)
  /-- `[addr]` -/
  | mem (a : Byte)
  /-- a number literal -/
  | imm (v : Byte)
deriving DecidableEq, Repr

/-- QMOV's operands in the order they are written (R159): exactly one register and one address. -/
inductive QmovForm where
  /-- `QMOV Rn [addr]` -/
  | regAddr (r a : Byte)
  /-- `QMOV [addr] Rn` -/
  | addrReg (a r : Byte)
deriving DecidableEq, Repr

/-- OUT's operand (R180 to R182). -/
inductive OutTarget where
  /-- `OUT Rn` -/
  | reg (r : Byte)
  /-- `OUT imm` -/
  | imm (v : Byte)
  /-- `OUT [addr]`, the form the spec gives no behaviour (R182); the token as written. -/
  | addrShaped (tok : Token)
deriving DecidableEq, Repr

/-- The instructions, one constructor per row of spec/opcode_table.json. -/
inductive Instr where
  /-- LOAD (R150), both levels. -/
  | load (d m : Byte)
  /-- STORE (R151), both levels. -/
  | store (r m : Byte)
  /-- ADD (R127), both levels. -/
  | add (a b c : Byte)
  /-- AND (R128), both levels. -/
  | and (a b c : Byte)
  /-- OR (R129), both levels. -/
  | or (a b c : Byte)
  /-- XOR (R132), both levels. -/
  | xor (a b c : Byte)
  /-- NOT (R133), both levels. -/
  | not (a b : Byte)
  /-- JUMP (R206), binary level only. -/
  | jump (t : Byte)
  /-- The reserved opcode 0x09, assigned to INIT and rejected (R82). -/
  | initReserved
  /-- The reserved opcode 0x0A, assigned to OUT and rejected (R82). -/
  | outReserved
  /-- The reserved opcode 0x0B, assigned to CLEAR and rejected (R82). -/
  | clearReserved
  /-- The reserved opcode 0xFE, assigned to VER and rejected (R82). -/
  | verReserved
  /-- HALT (R185), both levels. -/
  | halt
  /-- NAND (R130), text level only. -/
  | nand (a b c : Byte)
  /-- NOR (R131), text level only. -/
  | nor (a b c : Byte)
  /-- MOV (R152), text level only. -/
  | mov (dst : Place) (src : Source)
  /-- QMOV (R159), text level only. -/
  | qmov (f : QmovForm)
  /-- INIT (R163), text level. -/
  | init (a v : Byte)
  /-- OUT (R180), text level. -/
  | out (t : OutTarget)
  /-- CLEAR (R164), text level. -/
  | clear (t : Place)
  /-- VER (R183), text level. -/
  | ver (flag : Bool)
  /-- IF (R200), text level only. `line` is the line it was read from, which its clauses' errors name;
  the clauses are token lists that nothing has decoded yet (R203). -/
  | ifThen (line : Line) (a : Byte) (op : CmpOp) (o : Source) (th : List Token) (el : Option (List Token))
deriving DecidableEq, Repr

/-- The thirteen assigned opcodes (R76). -/
inductive Opcode where
  | load | store | add | and | or | xor | not | jump | init | out | clear | ver | halt
deriving DecidableEq, Repr

/-- The seventeen text mnemonics (R90). -/
inductive Mnemonic where
  | load | store | add | and | or | nand | nor | xor | not | mov | qmov | init | clear | out | ver | ifThen | halt
deriving DecidableEq, Repr

/-- The twelve error kinds (R230). -/
inductive ErrorKind where
  | outOfBounds | unknownInstruction | arityError | invalidRegister | invalidAddress | invalidImmediate
  | invalidFlag | invalidCondition | invalidOperandCombination | invalidDestination | syntaxError | invalidOpcode
deriving DecidableEq, Repr

/-- What InvalidRegister names: the token at the text level, the byte at the binary level (R235). -/
inductive RegInfo where
  | token (t : Token)
  | byte (b : Byte)
deriving DecidableEq, Repr

/-- An error with its information, the `Error(K, info)` of R13: one constructor per kind of R230. -/
inductive MachError where
  /-- An access at an address of 256 or more (R232). -/
  | outOfBounds (addr : Nat)
  /-- The first token is no mnemonic (R233). -/
  | unknownInstruction (tok : Token)
  /-- The token count is not the mnemonic's (R234). -/
  | arityError (mnemonic : Token) (line : Line)
  /-- No such register (R235). -/
  | invalidRegister (info : RegInfo)
  /-- A malformed or out-of-range address token (R236). -/
  | invalidAddress (tok : Token)
  /-- A malformed or too large immediate token (R237). -/
  | invalidImmediate (tok : Token)
  /-- VER's operand is neither 0 nor 1 (R238). -/
  | invalidFlag (tok : Token)
  /-- A malformed IF condition, or no THEN (R239). -/
  | invalidCondition (line : Line)
  /-- QMOV without exactly one register and one address (R240). -/
  | invalidOperandCombination (line : Line)
  /-- An immediate as the destination of MOV or CLEAR (R241). -/
  | invalidDestination (tok : Token)
  /-- INIT without its `=` (R242). -/
  | syntaxError (line : Line)
  /-- An opcode byte that is not executed (R243). -/
  | invalidOpcode (op : Byte)
deriving DecidableEq, Repr

end Sys2Proof
end

