-- ==== Sys2Proof/WellFormed.lean ====
section
/-! DEFINITION. Which instructions can be written down: every register operand names one of the eight registers
(30_encoding.md R78, R93), every token is one the tokeniser can produce (R88, R89), the refused form of OUT carries an
address-shaped token (R92), and the then-clause of an IF holds no ELSE, because the first ELSE ends it (R101). -/

namespace Sys2Proof

/-- The byte names a register (R20: "register index must be in `[0,8)`"). -/
def regOk (r : Byte) : Bool := decide (r.toNat < Config.numRegs)

/-- A token as R88 and R89 make them: not empty, with no space, no tab and no `;`. -/
def tokenOk (t : Token) : Bool := !t.isEmpty && t.all fun c => c != ' ' && c != '\t' && c != ';'

/-- Well-formedness of a destination. -/
def Place.wf : Place → Bool
  | .reg r => regOk r
  | .mem _ => true

/-- Well-formedness of a source. -/
def Source.wf : Source → Bool
  | .reg r => regOk r
  | .mem _ => true
  | .imm _ => true

/-- Well-formedness of QMOV's operands. -/
def QmovForm.wf : QmovForm → Bool
  | .regAddr r _ => regOk r
  | .addrReg _ r => regOk r

/-- Well-formedness of OUT's operand. -/
def OutTarget.wf : OutTarget → Bool
  | .reg r => regOk r
  | .imm _ => true
  | .addrShaped tok => tokenOk tok && tok.head? == some '['

/-- Well-formedness of an IF's clauses. -/
def clausesOk (th : List Token) (el : Option (List Token)) : Bool :=
  th.all tokenOk && (el.getD []).all tokenOk && !th.contains "ELSE".toList

/-- Well-formedness of an instruction. -/
def Instr.wf : Instr → Bool
  | .load d _ => regOk d
  | .store r _ => regOk r
  | .add a b c => regOk a && regOk b && regOk c
  | .and a b c => regOk a && regOk b && regOk c
  | .or a b c => regOk a && regOk b && regOk c
  | .xor a b c => regOk a && regOk b && regOk c
  | .not a b => regOk a && regOk b
  | .jump _ => true
  | .initReserved => true
  | .outReserved => true
  | .clearReserved => true
  | .verReserved => true
  | .halt => true
  | .nand a b c => regOk a && regOk b && regOk c
  | .nor a b c => regOk a && regOk b && regOk c
  | .mov dst src => dst.wf && src.wf
  | .qmov f => f.wf
  | .init _ _ => true
  | .out t => t.wf
  | .clear t => t.wf
  | .ver _ => true
  | .ifThen _ a _ o th el => regOk a && o.wf && clausesOk th el

end Sys2Proof
end

