-- ==== Sys2Proof/Decode.lean ====
section
/-! DEFINITION. The instruction decoder of 30_encoding.md, both front ends, and the encoders written from the same
tables. Binary: a slot's bytes to an instruction (R72 to R86). Text: a line to tokens (R87 to R89), tokens to an
instruction (R90 to R102, R107, R108), in the order of checks of R98. -/

namespace Sys2Proof

/-! ### Binary: the opcode table and the operand layout -/

/-- The opcode bytes (R76), the one table of them (93_implementation_defined.md U4). -/
def opcodeByte : Opcode → Byte
  | .load => 0x01
  | .store => 0x02
  | .add => 0x03
  | .and => 0x04
  | .or => 0x05
  | .xor => 0x06
  | .not => 0x07
  | .jump => 0x08
  | .init => 0x09
  | .out => 0x0A
  | .clear => 0x0B
  | .ver => 0xFE
  | .halt => 0xFF

/-- The assigned opcodes in the order of R76. -/
def allOpcodes : List Opcode :=
  [.load, .store, .add, .and, .or, .xor, .not, .jump, .init, .out, .clear, .ver, .halt]

/-- The opcode a byte stands for; `none` for the 243 unassigned bytes (R83). -/
def opcodeOf (b : Byte) : Option Opcode := allOpcodes.find? fun o => opcodeByte o == b

/-- How many operand bytes an opcode has (R77, R210; none for the reserved ones, R82). -/
def operandCount : Opcode → Nat
  | .load => 2
  | .store => 2
  | .add => 3
  | .and => 3
  | .or => 3
  | .xor => 3
  | .not => 2
  | .jump => 1
  | .init => 0
  | .out => 0
  | .clear => 0
  | .ver => 0
  | .halt => 0

/-- The instruction of an opcode and the bytes after it, by the layout of R75 and R81; `none` where an operand byte
is missing. Bytes beyond the ones the format names are ignored (R80). -/
def buildInstr : Opcode → List Byte → Option Instr
  | .load, d :: m :: _ => some (.load d m)
  | .store, r :: m :: _ => some (.store r m)
  | .add, a :: b :: c :: _ => some (.add a b c)
  | .and, a :: b :: c :: _ => some (.and a b c)
  | .or, a :: b :: c :: _ => some (.or a b c)
  | .xor, a :: b :: c :: _ => some (.xor a b c)
  | .not, a :: b :: _ => some (.not a b)
  | .jump, t :: _ => some (.jump t)
  | .init, _ => some .initReserved
  | .out, _ => some .outReserved
  | .clear, _ => some .clearReserved
  | .ver, _ => some .verReserved
  | .halt, _ => some .halt
  | _, _ => none

/-- Why the binary decoder refuses some bytes. -/
inductive DecodeReject where
  /-- The opcode byte is unassigned (R83). -/
  | invalidOpcode (op : Byte)
  /-- Only this many bytes are there and the opcode needs more. -/
  | truncated (present : Nat)
deriving DecidableEq, Repr

/-- The binary decoder: the bytes from the opcode on to an instruction, total on any bytes. -/
def decode : List Byte → Except DecodeReject Instr
  | [] => .error (.truncated 0)
  | op :: rest =>
    match opcodeOf op with
    | none => .error (.invalidOpcode op)
    | some o =>
      match buildInstr o rest with
      | some i => .ok i
      | none => .error (.truncated (rest.length + 1))

/-- The slot of an instruction (R81, R110); `none` for the text-only instructions. The zero in the unused bytes is the
model's choice (DESIGN CHOICE, log entry 21): R110 says that the value an assembler writes there is not given. No step reads
them (R80). -/
def encode : Instr → Option (List Byte)
  | .load d m => some [opcodeByte .load, d, m, 0]
  | .store r m => some [opcodeByte .store, r, m, 0]
  | .add a b c => some [opcodeByte .add, a, b, c]
  | .and a b c => some [opcodeByte .and, a, b, c]
  | .or a b c => some [opcodeByte .or, a, b, c]
  | .xor a b c => some [opcodeByte .xor, a, b, c]
  | .not a b => some [opcodeByte .not, a, b, 0]
  | .jump t => some [opcodeByte .jump, t, 0, 0]
  | .initReserved => some [opcodeByte .init, 0, 0, 0]
  | .outReserved => some [opcodeByte .out, 0, 0, 0]
  | .clearReserved => some [opcodeByte .clear, 0, 0, 0]
  | .verReserved => some [opcodeByte .ver, 0, 0, 0]
  | .halt => some [opcodeByte .halt, 0, 0, 0]
  | .nand _ _ _ => none
  | .nor _ _ _ => none
  | .mov _ _ => none
  | .qmov _ => none
  | .init _ _ => none
  | .out _ => none
  | .clear _ => none
  | .ver _ => none
  | .ifThen _ _ _ _ _ _ => none

/-- The bytes of a table word of `nbits` bits in address order: R86 writes byte 0 leftmost, that is most significant. -/
def wordBytes (nbits w : Nat) : List Byte :=
  (List.range (nbits / 8)).map fun k => BitVec.ofNat 8 (w >>> (nbits - 8 * (k + 1)))

/-- A table word as the slot it stands for: its bytes in address order, then zeros up to the slot's four. -/
def tableSlot (nbits w : Nat) : List Byte :=
  (wordBytes nbits w ++ List.replicate Config.slot 0).take Config.slot

/-- What the decoder reads from a word of spec/opcode_table.json. -/
def decodeTableWord (nbits w : Nat) : Option Instr :=
  match decode (tableSlot nbits w) with
  | .ok i => some i
  | .error _ => none

/-! ### Text: lines and tokens -/

/-- The two whitespace characters (R89, decision D14). -/
def isWhite (c : Char) : Bool := c == ' ' || c == '\t'

/-- The line without everything from its first `;` on (R88 step 1). -/
def stripComment (l : Line) : Line := l.takeWhile fun c => c != ';'

/-- One finished token in front of the rest, unless it is empty. `acc` is the token's characters, last first. -/
def flushToken (acc : List Char) (rest : List Token) : List Token :=
  if acc.isEmpty then rest else acc.reverse :: rest

/-- The maximal runs of non-white characters, in order; `acc` is the run being read, last character first. -/
def splitTokens : List Char → List Char → List Token
  | [], acc => flushToken acc []
  | c :: cs, acc => if isWhite c then flushToken acc (splitTokens cs []) else splitTokens cs (c :: acc)

/-- R88 steps 1 to 3. Step 2, the trimming, is no separate work: whitespace at the ends makes no token. -/
def tokenise (l : Line) : List Token := splitTokens (stripComment l) []

/-! ### Text: numbers and operand tokens -/

/-- The value of a digit in a base, upper- and lower-case letters alike (R96). -/
def digitOf (base : Nat) (c : Char) : Option Nat :=
  let n := c.toNat
  let v :=
    if 48 ≤ n ∧ n ≤ 57 then n - 48
    else if 97 ≤ n ∧ n ≤ 102 then n - 87
    else if 65 ≤ n ∧ n ≤ 70 then n - 55
    else base
  if v < base then some v else none

/-- The number that digits denote after the digits read so far, of any size; `none` at a character that is no digit. -/
def parseDigits (base : Nat) : Nat → List Char → Option Nat
  | acc, [] => some acc
  | acc, c :: cs =>
    match digitOf base c with
    | some d => parseDigits base (acc * base + d) cs
    | none => none

/-- One or more digits. -/
def digitsLit (base : Nat) (t : List Char) : Option Nat := if t.isEmpty then none else parseDigits base 0 t

/-- A decimal literal (R96). -/
def decimalLit (t : List Char) : Option Nat := digitsLit 10 t

/-- A hex literal: `0x` and one or more hex digits (R96). -/
def hexLit : List Char → Option Nat
  | '0' :: 'x' :: ds => digitsLit 16 ds
  | _ => none

/-- A binary literal: `0b` and one or more binary digits (R96). -/
def binaryLit : List Char → Option Nat
  | '0' :: 'b' :: ds => digitsLit 2 ds
  | _ => none

/-- The kind of a token, by its first character (R92, decision D15). -/
inductive Shape where
  | reg | addr | imm
deriving DecidableEq, Repr

/-- R92: `R` register, `[` address, anything else immediate. -/
def shapeOf : Token → Shape
  | 'R' :: _ => .reg
  | '[' :: _ => .addr
  | _ => .imm

/-- The token without one trailing comma (R93, R107). -/
def stripComma (tok : Token) : Token := if tok.getLast? == some ',' then tok.dropLast else tok

/-- `ResolveReg` (R93): the register index, or InvalidRegister with the token less its comma. -/
def resolveReg (tok : Token) : Except MachError Byte :=
  match stripComma tok with
  | 'R' :: n =>
    match decimalLit n with
    | some v => if v < Config.numRegs then .ok (BitVec.ofNat 8 v) else .error (.invalidRegister (.token (stripComma tok)))
    | none => .error (.invalidRegister (.token (stripComma tok)))
  | t => .error (.invalidRegister (.token t))

/-- The number inside the brackets of an address token, hex or decimal (R94). -/
def addrNumber (tok : Token) : Option Nat :=
  if tok.head? == some '[' && tok.getLast? == some ']' then
    match hexLit (tok.drop 1).dropLast with
    | some v => some v
    | none => decimalLit (tok.drop 1).dropLast
  else none

/-- `ResolveAddr` (R94): the address, in bounds (R59), or InvalidAddress. -/
def resolveAddr (tok : Token) : Except MachError Byte :=
  match addrNumber tok with
  | some v => if v < Config.numCells then .ok (BitVec.ofNat 8 v) else .error (.invalidAddress tok)
  | none => .error (.invalidAddress tok)

/-- A literal in any of the three bases (R95, R96). -/
def anyLit (tok : Token) : Option Nat :=
  match binaryLit tok with
  | some v => some v
  | none =>
    match hexLit tok with
    | some v => some v
    | none => decimalLit tok

/-- `ResolveImm` (R95): the 8-bit value, or InvalidImmediate. -/
def resolveImm (tok : Token) : Except MachError Byte :=
  match anyLit tok with
  | some v => if v ≤ 255 then .ok (BitVec.ofNat 8 v) else .error (.invalidImmediate tok)
  | none => .error (.invalidImmediate tok)

/-- `Resolve` (R97): a token of any kind, dispatched on its shape. -/
def resolve (tok : Token) : Except MachError Source :=
  match shapeOf tok with
  | .reg => do let r ← resolveReg tok; pure (.reg r)
  | .addr => do let a ← resolveAddr tok; pure (.mem a)
  | .imm => do let v ← resolveImm tok; pure (.imm v)

/-- A destination (R152 step 2, R164): an immediate-shaped token raises InvalidDestination unparsed. -/
def resolvePlace (tok : Token) : Except MachError Place :=
  match shapeOf tok with
  | .reg => do let r ← resolveReg tok; pure (.reg r)
  | .addr => do let a ← resolveAddr tok; pure (.mem a)
  | .imm => .error (.invalidDestination tok)

/-- QMOV's operands (R159): the two shapes first, then the values left to right. -/
def resolveQmov (line : Line) (t1 t2 : Token) : Except MachError QmovForm :=
  match shapeOf t1, shapeOf t2 with
  | .reg, .addr => do let r ← resolveReg t1; let a ← resolveAddr t2; pure (.regAddr r a)
  | .addr, .reg => do let a ← resolveAddr t1; let r ← resolveReg t2; pure (.addrReg a r)
  | .reg, .reg => .error (.invalidOperandCombination line)
  | .reg, .imm => .error (.invalidOperandCombination line)
  | .addr, .addr => .error (.invalidOperandCombination line)
  | .addr, .imm => .error (.invalidOperandCombination line)
  | .imm, _ => .error (.invalidOperandCombination line)

/-- OUT's operand (R180 to R182): an address-shaped token is kept as it is, for the form has no meaning. -/
def resolveOut (tok : Token) : Except MachError OutTarget :=
  match shapeOf tok with
  | .reg => do let r ← resolveReg tok; pure (.reg r)
  | .addr => .ok (.addrShaped tok)
  | .imm => do let v ← resolveImm tok; pure (.imm v)

/-- VER's operand (R108): exactly the one-character token `0` or `1`. -/
def resolveFlag (tok : Token) : Except MachError Bool :=
  if tok = ['0'] then .ok false else if tok = ['1'] then .ok true else .error (.invalidFlag tok)

/-! ### Text: mnemonics -/

/-- The spelling of a mnemonic (R90). -/
def mnemonicName : Mnemonic → Token
  | .load => "LOAD".toList
  | .store => "STORE".toList
  | .add => "ADD".toList
  | .and => "AND".toList
  | .or => "OR".toList
  | .nand => "NAND".toList
  | .nor => "NOR".toList
  | .xor => "XOR".toList
  | .not => "NOT".toList
  | .mov => "MOV".toList
  | .qmov => "QMOV".toList
  | .init => "INIT".toList
  | .clear => "CLEAR".toList
  | .out => "OUT".toList
  | .ver => "VER".toList
  | .ifThen => "IF".toList
  | .halt => "HALT".toList

/-- The seventeen mnemonics in the order of R90. -/
def allMnemonics : List Mnemonic :=
  [.load, .store, .add, .and, .or, .nand, .nor, .xor, .not, .mov, .qmov, .init, .clear, .out, .ver, .ifThen, .halt]

/-- The mnemonic a token is, by exact match (R90). -/
def mnemonicOf (t : Token) : Option Mnemonic := allMnemonics.find? fun m => mnemonicName m == t

/-- The required token count, the mnemonic included; `none` for IF, which has none (R91). -/
def arity : Mnemonic → Option Nat
  | .load => some 3
  | .store => some 3
  | .not => some 3
  | .mov => some 3
  | .qmov => some 3
  | .add => some 4
  | .and => some 4
  | .or => some 4
  | .nand => some 4
  | .nor => some 4
  | .xor => some 4
  | .init => some 4
  | .clear => some 2
  | .out => some 2
  | .ver => some 2
  | .halt => some 1
  | .ifThen => none

/-- The spelling of a comparison operator (R102). -/
def cmpName : CmpOp → Token
  | .eq => "==".toList
  | .ne => "!=".toList
  | .gt => ">".toList
  | .lt => "<".toList
  | .ge => ">=".toList
  | .le => "<=".toList

/-- The operator a token is, by exact match (R102). -/
def cmpOf (t : Token) : Option CmpOp :=
  [CmpOp.eq, .ne, .gt, .lt, .ge, .le].find? fun o => cmpName o == t

/-! ### Text: a token list to an instruction -/

/-- Three register tokens, resolved left to right (R134). -/
def threeRegs (f : Byte → Byte → Byte → Instr) (t1 t2 t3 : Token) : Except MachError Instr := do
  let a ← resolveReg t1
  let b ← resolveReg t2
  let c ← resolveReg t3
  pure (f a b c)

/-- The tokens before and after the first occurrence of a keyword, `none` where it does not occur (R101). -/
def splitAtKeyword (k : Token) : List Token → Option (List Token × List Token)
  | [] => none
  | t :: ts =>
    if t = k then some ([], ts)
    else
      match splitAtKeyword k ts with
      | some (before, after) => some (t :: before, after)
      | none => none

/-- The then-clause and the optional else-clause of what follows THEN: split at the first ELSE (R101). -/
def splitClauses (rest : List Token) : List Token × Option (List Token) :=
  match splitAtKeyword "ELSE".toList rest with
  | some (th, el) => (th, some el)
  | none => (rest, none)

/-- IF (R101, R102, R200): split at the first THEN, check the shape of the condition, resolve its operands. `args`
are the tokens after `IF`. -/
def decodeIf (line : Line) (args : List Token) : Except MachError Instr :=
  match splitAtKeyword "THEN".toList args with
  | some ([ra, op, o], rest) =>
    if shapeOf (stripComma ra) = .reg then
      match cmpOf op with
      | some c => do
        let a ← resolveReg ra
        let v ← resolve o
        pure (.ifThen line a c v (splitClauses rest).1 (splitClauses rest).2)
      | none => .error (.invalidCondition line)
    else .error (.invalidCondition line)
  | _ => .error (.invalidCondition line)

/-- The operands of a mnemonic whose token count is right (R99). `m` is its token, for the arity error that a wrong
count has already raised. -/
def decodeOperands (line : Line) (m : Token) : Mnemonic → List Token → Except MachError Instr
  | .load, [t1, t2] => do let d ← resolveReg t1; let a ← resolveAddr t2; pure (.load d a)
  | .store, [t1, t2] => do let r ← resolveReg t1; let a ← resolveAddr t2; pure (.store r a)
  | .add, [t1, t2, t3] => threeRegs .add t1 t2 t3
  | .and, [t1, t2, t3] => threeRegs .and t1 t2 t3
  | .or, [t1, t2, t3] => threeRegs .or t1 t2 t3
  | .nand, [t1, t2, t3] => threeRegs .nand t1 t2 t3
  | .nor, [t1, t2, t3] => threeRegs .nor t1 t2 t3
  | .xor, [t1, t2, t3] => threeRegs .xor t1 t2 t3
  | .not, [t1, t2] => do let a ← resolveReg t1; let b ← resolveReg t2; pure (.not a b)
  | .mov, [t1, t2] => do let d ← resolvePlace t1; let s ← resolve t2; pure (.mov d s)
  | .qmov, [t1, t2] => do let f ← resolveQmov line t1 t2; pure (.qmov f)
  | .init, [t1, t2, t3] =>
    if t2 = ['='] then do let a ← resolveAddr t1; let v ← resolveImm t3; pure (.init a v)
    else .error (.syntaxError line)
  | .clear, [t1] => do let p ← resolvePlace t1; pure (.clear p)
  | .out, [t1] => do let o ← resolveOut t1; pure (.out o)
  | .ver, [t1] => do let b ← resolveFlag t1; pure (.ver b)
  | .halt, [] => .ok .halt
  | _, _ => .error (.arityError m line)

/-- A mnemonic token and the tokens after it to an instruction: dispatch, arity, operands (R88, R98). -/
def decodeInstr (line : Line) (m : Token) (args : List Token) : Except MachError Instr :=
  match mnemonicOf m with
  | none => .error (.unknownInstruction m)
  | some k =>
    match arity k with
    | none => decodeIf line args
    | some n => if args.length + 1 = n then decodeOperands line m k args else .error (.arityError m line)

/-- `ExecTokens` up to the execution (R88): no tokens are a no-op. -/
def decodeTokens (line : Line) : List Token → Except MachError (Option Instr)
  | [] => .ok none
  | m :: args =>
    match decodeInstr line m args with
    | .ok i => .ok (some i)
    | .error e => .error e

/-! ### Text: the encoder -/

/-- A number in decimal digits. -/
def decimal (n : Nat) : List Char := Nat.toDigits 10 n

/-- A register token (R93). -/
def regToken (r : Byte) : Token := 'R' :: decimal r.toNat

/-- An address token (R94). -/
def addrToken (a : Byte) : Token := '[' :: (decimal a.toNat ++ [']'])

/-- An immediate token (R95). -/
def immToken (v : Byte) : Token := decimal v.toNat

/-- The token of a destination. -/
def Place.token : Place → Token
  | .reg r => regToken r
  | .mem a => addrToken a

/-- The token of a source. -/
def Source.token : Source → Token
  | .reg r => regToken r
  | .mem a => addrToken a
  | .imm v => immToken v

/-- The tokens of an IF's clauses. -/
def clauseTokens (th : List Token) : Option (List Token) → List Token
  | none => th
  | some el => th ++ "ELSE".toList :: el

/-- The tokens of an instruction, by the rows of R99; `none` for the ones with no text form (R104, R82). Of the spellings
R93 to R96 allow, decimal without leading zeros and without commas is the model's choice (DESIGN CHOICE, log entry 22). -/
def encodeText : Instr → Option (List Token)
  | .load d m => some ["LOAD".toList, regToken d, addrToken m]
  | .store r m => some ["STORE".toList, regToken r, addrToken m]
  | .add a b c => some ["ADD".toList, regToken a, regToken b, regToken c]
  | .and a b c => some ["AND".toList, regToken a, regToken b, regToken c]
  | .or a b c => some ["OR".toList, regToken a, regToken b, regToken c]
  | .xor a b c => some ["XOR".toList, regToken a, regToken b, regToken c]
  | .not a b => some ["NOT".toList, regToken a, regToken b]
  | .jump _ => none
  | .initReserved => none
  | .outReserved => none
  | .clearReserved => none
  | .verReserved => none
  | .halt => some ["HALT".toList]
  | .nand a b c => some ["NAND".toList, regToken a, regToken b, regToken c]
  | .nor a b c => some ["NOR".toList, regToken a, regToken b, regToken c]
  | .mov dst src => some ["MOV".toList, dst.token, src.token]
  | .qmov (.regAddr r a) => some ["QMOV".toList, regToken r, addrToken a]
  | .qmov (.addrReg a r) => some ["QMOV".toList, addrToken a, regToken r]
  | .init a v => some ["INIT".toList, addrToken a, "=".toList, immToken v]
  | .out (.reg r) => some ["OUT".toList, regToken r]
  | .out (.imm v) => some ["OUT".toList, immToken v]
  | .out (.addrShaped tok) => some ["OUT".toList, tok]
  | .clear p => some ["CLEAR".toList, p.token]
  | .ver flag => some ["VER".toList, if flag then ['1'] else ['0']]
  | .ifThen _ a op o th el =>
    some ("IF".toList :: regToken a :: cmpName op :: o.token :: "THEN".toList :: clauseTokens th el)

/-- The line an instruction carries for its clauses' errors: only an IF has one. -/
def Instr.carriedLine : Instr → Option Line
  | .ifThen line _ _ _ _ _ => some line
  | _ => none

/-- A token list as one line, a space before every token but the first: of the whitespace R89 allows, the model's choice
(DESIGN CHOICE, log entry 22). -/
def unwords : List Token → Line
  | [] => []
  | [t] => t
  | t :: ts => t ++ ' ' :: unwords ts

end Sys2Proof
end

