-- ==== Sys2Proof/Machine/Alu.lean ====
section
/-! DEFINITION. The Logic Unit and the ALU (40_alu_logic.md R120 to R126): stateless functions on bytes. -/

namespace Sys2Proof.Machine

/-- `and(a,b)` (R120). -/
def and8 (a b : Byte) : Byte := a &&& b

/-- `or(a,b)` (R121). -/
def or8 (a b : Byte) : Byte := a ||| b

/-- `xor(a,b)` (R122). -/
def xor8 (a b : Byte) : Byte := a ^^^ b

/-- `not(a)`, masked to 8 bits (R123). -/
def not8 (a : Byte) : Byte := ~~~a

/-- `nand(a,b) = not(and(a,b))` (R124). -/
def nand8 (a b : Byte) : Byte := not8 (and8 a b)

/-- `nor(a,b) = not(or(a,b))` (R125). -/
def nor8 (a b : Byte) : Byte := not8 (or8 a b)

/-- `add8(a,b) = (a + b) mod 256` (R126): the exact sum, narrowed. -/
def add8 (a b : Byte) : Byte := BitVec.ofNat 8 (a.toNat + b.toNat)

end Sys2Proof.Machine
end

