-- ==== Sys2Proof/Machine/State.lean ====
section
/-! DEFINITION. The state record of 10_state.md R36, as plain data, its value after `Reset()` (R35), and the reasons a
step can stop. -/

namespace Sys2Proof.Machine

/-- Memory (R31): the cells that differ from the reset value, in rising order of address. -/
abbrev Memory := List Host.Cell

/-- The one form a memory is held in: addresses strictly rising, every address a cell that exists, no cell listed at
the value an unlisted cell reads as. -/
abbrev Memory.wf (m : Memory) : Prop :=
  m.Pairwise (fun p q => p.1 < q.1) ∧ ∀ c ∈ m, c.1 < Config.numCells ∧ c.2 ≠ Config.resetMem

/-- The run loop in progress (R212, R216): the host's call, which a step goes on with (log entry 3). -/
inductive RunLoop where
  /-- `RunBinary()` -/
  | binary
  /-- `RunText(lines)`, with the lines it has not executed yet -/
  | text (rest : List Line)
deriving DecidableEq, Repr

/-- The run status `run` (R28). -/
inductive RunStatus where
  /-- No run started, or a text run out of lines. -/
  | idle
  /-- A run in progress, and which. -/
  | running (loop : RunLoop)
  /-- A HALT was executed. -/
  | halted
  /-- An error ended the run: `Stopped(K, info)`. -/
  | stopped (e : MachError)
deriving DecidableEq, Repr

/-- The outcome of an instruction (00_scope.md R13). -/
inductive StepOutcome where
  /-- `Continue` -/
  | cont
  /-- `Halt` -/
  | halt
  /-- `Error(K, info)` -/
  | error (e : MachError)
deriving DecidableEq, Repr

/-- An event of the diagnostic stream (R30). -/
inductive DiagEvent where
  /-- `Out(v)` -/
  | out (v : Byte)
deriving DecidableEq, Repr

/-- The state of the block (R36), and the outcome it last returned (log entry 2). -/
structure State where
  /-- The eight general registers (R20). -/
  x : Vector Byte 8
  /-- The 256 memory cells (R31). -/
  mem : Memory
  /-- The program counter of the binary level, a natural number (R24). -/
  pc : Nat
  /-- The verbose flag (R27). -/
  verbose : Bool
  /-- The run status (R28). -/
  run : RunStatus
  /-- The diagnostic stream, oldest event first (R30). -/
  diag : List DiagEvent
  /-- The outcome of the last instruction, the value its caller receives (R13). The model's own field. -/
  outcome : StepOutcome
deriving DecidableEq, Repr

/-- Why the machine would stop with a fault. There is none: every error of the spec has its effect given (R246, R247),
so it is a next state (log entry 7). Nothing raises a fault, which is safe. -/
inductive Fault where
deriving DecidableEq, Repr

/-- Why an instruction has no next state. -/
inductive Refusal where
  /-- Raised by an arm of `exec` whose instruction has no meaning yet; safe. No arm does so now. -/
  | notModelled (mnemonic : String)
  /-- Raised by OUT (and by an IF whose selected clause is that OUT) with an address-shaped operand: the spec gives the
  form no behaviour and has a model refuse it (R182, 93_implementation_defined.md U5); safe. -/
  | outAddressForm (tok : Token)
  /-- Raised by IF when clauses nest deeper than a limit `Config.maxIfDepth` allows (93_implementation_defined.md U8);
  safe. The spec sets no limit, and without one nothing raises this. -/
  | ifTooDeep
deriving DecidableEq, Repr

/-- The machine right after `Reset()` (R35, R270). -/
def State.reset : State where
  x := Vector.replicate 8 Config.resetReg
  mem := []
  pc := Config.pcStart
  verbose := Config.resetVerbose
  run := .idle
  diag := []
  outcome := .cont

end Sys2Proof.Machine
end

