-- ==== Sys2Proof/Machine/Ops.lean ====
section
/-! DEFINITION. The named operations over memory, registers, the diagnostic stream and the run status, and the one way
an instruction ends: Continue, Halt or Error (00_scope.md R12, R13). -/

namespace Sys2Proof.Machine

/-- What an instruction answers. -/
abbrev Answer := Host.Outcome State Fault Refusal

/-! ### Memory cells -/

/-- The cell at an address; an unlisted one holds the reset value (R35). -/
def Memory.read : Memory → Nat → Byte
  | [], _ => Config.resetMem
  | (b, v) :: rest, a => if b = a then v else Memory.read rest a

/-- A cell in front of the rest, unless it holds what an unlisted cell reads as. -/
def Memory.consCell (a : Nat) (v : Byte) (rest : Memory) : Memory :=
  if v = Config.resetMem then rest else (a, v) :: rest

/-- The memory with one cell overwritten, in the canonical form. -/
def Memory.write : Memory → Nat → Byte → Memory
  | [], a, v => Memory.consCell a v []
  | (b, w) :: rest, a, v =>
    if a < b then Memory.consCell a v ((b, w) :: rest)
    else if a = b then Memory.consCell a v rest
    else (b, w) :: Memory.write rest a v

/-- `MemRead(addr, 1)` (R42): the cell, or OutOfBounds. -/
def memRead (addr : Nat) (s : State) : Except MachError Byte :=
  if addr < Config.numCells then .ok (Memory.read s.mem addr) else .error (.outOfBounds addr)

/-- `MemWrite(addr, 1, v)` (R43): the state with the cell overwritten, or OutOfBounds. -/
def memWrite (addr : Nat) (v : Byte) (s : State) : Except MachError State :=
  if addr < Config.numCells then .ok { s with mem := Memory.write s.mem addr v } else .error (.outOfBounds addr)

/-! ### Registers and the diagnostic stream -/

/-- The register a byte names, or InvalidRegister with the byte (R78). -/
def regIndex (b : Byte) : Except MachError (Fin 8) :=
  if h : b.toNat < 8 then .ok ⟨b.toNat, h⟩ else .error (.invalidRegister (.byte b))

/-- Register `i` (R12: `x[i]`). -/
def getReg (s : State) (i : Fin 8) : Byte := s.x[i]

/-- The state with register `i` written (R12: `x[i] <- v`). -/
def setReg (s : State) (i : Fin 8) (v : Byte) : State := { s with x := s.x.set i v }

/-- The state with an event appended to the diagnostic stream (R12: `emit Out(v)`). -/
def emitOut (s : State) (v : Byte) : State := { s with diag := s.diag ++ [.out v] }

/-! ### The end of an instruction -/

/-- What an outcome does to the run status (R28): inside a run Halt ends it as Halted and an error as Stopped; outside
one nothing changes. -/
def settleRun : RunStatus → StepOutcome → RunStatus
  | .running _, .halt => .halted
  | .running _, .error e => .stopped e
  | r, _ => r

/-- The state as an instruction with this outcome leaves it. -/
def signal (s : State) (o : StepOutcome) : State := { s with outcome := o, run := settleRun s.run o }

/-- `return Continue`. -/
def completeWith (s : State) : Answer := .next (signal s .cont)

/-- `return Halt`. -/
def haltWith (s : State) : Answer := .next (signal s .halt)

/-- `raise K(info)`, the one way an error is taken (R246, R247): the caller receives the error, a run stops with it,
and registers, memory, `pc`, `verbose` and `diag` are as they were. There is no return from it (R248). -/
def takeError (e : MachError) (s : State) : Answer := .next (signal s (.error e))

/-- The end of an instruction whose checks and effect are given as one computation on the state `s` it started in: all
checks come before the first write (R246), so an error leaves `s`. -/
def commit (s : State) : Except MachError State → Answer
  | .ok t => completeWith t
  | .error e => takeError e s

end Sys2Proof.Machine
end

