-- ==== Sys2Proof/Machine/Arith.lean ====
section
/-! DEFINITION. The register-to-register instructions (40_alu_logic.md R127 to R134). The `pc` advance that the binary
level adds is the step's (43_control_flow.md R208). -/

namespace Sys2Proof.Machine

/-- The three-register form (R134): the operands are checked in order, both sources are read, the destination is
written. -/
def threeRegOp (f : Byte → Byte → Byte) (a b c : Byte) (s : State) : Answer :=
  commit s do
    let i ← regIndex a
    let j ← regIndex b
    let k ← regIndex c
    pure (setReg s k (f (getReg s i) (getReg s j)))

/-- ADD (R127). -/
def execAdd (a b c : Byte) (s : State) : Answer := threeRegOp add8 a b c s

/-- AND (R128). -/
def execAnd (a b c : Byte) (s : State) : Answer := threeRegOp and8 a b c s

/-- OR (R129). -/
def execOr (a b c : Byte) (s : State) : Answer := threeRegOp or8 a b c s

/-- NAND (R130). -/
def execNand (a b c : Byte) (s : State) : Answer := threeRegOp nand8 a b c s

/-- NOR (R131). -/
def execNor (a b c : Byte) (s : State) : Answer := threeRegOp nor8 a b c s

/-- XOR (R132). -/
def execXor (a b c : Byte) (s : State) : Answer := threeRegOp xor8 a b c s

/-- NOT (R133): `x[b] <- not(x[a])`. -/
def execNot (a b : Byte) (s : State) : Answer :=
  commit s do
    let i ← regIndex a
    let j ← regIndex b
    pure (setReg s j (not8 (getReg s i)))

end Sys2Proof.Machine
end

