-- ==== Sys2Proof/Machine/Operands.lean ====
section
/-! DEFINITION. The operand forms of 30_encoding.md R92 as the instructions read and write them. Every address is
absolute (20_memory.md R62). -/

namespace Sys2Proof.Machine

/-- The value of a source operand: a register, the contents of a cell, or the number itself (R152, R201). -/
def sourceValue (o : Source) (s : State) : Except MachError Byte :=
  match o with
  | .reg r => do let i ← regIndex r; pure (getReg s i)
  | .mem a => memRead a.toNat s
  | .imm v => .ok v

/-- The check of a destination, made before the source is looked at (R98). -/
def checkPlace : Place → Except MachError Unit
  | .reg r => do let _ ← regIndex r; pure ()
  | .mem _ => .ok ()

/-- The state with a destination written (R153 to R158, R165, R166). -/
def writePlace (p : Place) (v : Byte) (s : State) : Except MachError State :=
  match p with
  | .reg r => do let i ← regIndex r; pure (setReg s i v)
  | .mem a => memWrite a.toNat v s

end Sys2Proof.Machine
end

