-- ==== Sys2Proof/Machine/Data.lean ====
section
/-! DEFINITION. Loads, stores and data movement (41_data_movement.md R150 to R166). -/

namespace Sys2Proof.Machine

/-- LOAD (R150): `x[d] <- M[m]`. -/
def execLoad (d m : Byte) (s : State) : Answer :=
  commit s do
    let i ← regIndex d
    let v ← memRead m.toNat s
    pure (setReg s i v)

/-- STORE (R151): `M[m] <- x[r]`. -/
def execStore (r m : Byte) (s : State) : Answer :=
  commit s do
    let i ← regIndex r
    memWrite m.toNat (getReg s i) s

/-- MOV (R152 to R158): the destination is checked first, then the source is read, then the destination is written. -/
def execMov (dst : Place) (src : Source) (s : State) : Answer :=
  commit s do
    checkPlace dst
    let v ← sourceValue src s
    writePlace dst v s

/-- Move-and-clear from a register to a cell (R160): the copy, then the clearing of the register. -/
def moveRegToMem (r a : Byte) (s : State) : Except MachError State := do
  let i ← regIndex r
  let t ← memWrite a.toNat (getReg s i) s
  pure (setReg t i 0)

/-- Move-and-clear from a cell to a register (R161): the copy, then the cell rewritten to 0. -/
def moveMemToReg (a r : Byte) (s : State) : Except MachError State := do
  let i ← regIndex r
  let v ← memRead a.toNat s
  memWrite a.toNat 0 (setReg s i v)

/-- QMOV's move under either operand order (R159, 90_conflicts.md C1). -/
def qmovMove (order : Config.QmovOrder) (f : QmovForm) (s : State) : Except MachError State :=
  match order, f with
  | .sourceFirst, .regAddr r a => moveRegToMem r a s
  | .sourceFirst, .addrReg a r => moveMemToReg a r s
  | .destinationFirst, .regAddr r a => moveMemToReg a r s
  | .destinationFirst, .addrReg a r => moveRegToMem r a s

/-- QMOV (R159 to R161), in the order of `Config.qmovOrder`. -/
def execQmov (f : QmovForm) (s : State) : Answer := commit s (qmovMove Config.qmovOrder f s)

/-- INIT (R163): `M[a] <- v`. -/
def execInit (a v : Byte) (s : State) : Answer := commit s (memWrite a.toNat v s)

/-- CLEAR (R164 to R166): the target is set to 0. -/
def execClear (t : Place) (s : State) : Answer := commit s (writePlace t 0 s)

end Sys2Proof.Machine
end

