-- ==== Sys2Proof/Machine/Diag.lean ====
section
/-! DEFINITION. OUT, VER and HALT (42_diag_system.md R180 to R185). -/

namespace Sys2Proof.Machine

/-- OUT (R180, R181): the event is appended whatever the verbose flag says. The address form is refused (R182). -/
def execOut (t : OutTarget) (s : State) : Answer :=
  match t with
  | .reg r =>
    commit s do
      let i ← regIndex r
      pure (emitOut s (getReg s i))
  | .imm v => completeWith (emitOut s v)
  | .addrShaped tok => .refused (.outAddressForm tok)

/-- VER (R183): sets the verbose flag. -/
def execVer (flag : Bool) (s : State) : Answer := completeWith { s with verbose := flag }

/-- HALT (R185): the outcome is Halt, nothing else changes; `pc` keeps the address of the HALT. -/
def execHalt (s : State) : Answer := haltWith s

end Sys2Proof.Machine
end

