-- ==== Sys2Proof/Machine/Flags.lean ====
section
/-! DEFINITION. The machine has no flags and no condition codes (10_state.md R26). What stands in their place is the
comparison an IF makes and uses at once (43_control_flow.md R202). -/

namespace Sys2Proof.Machine

/-- The six comparisons on unsigned values (R202): `l` left, `r` right. -/
def compareBytes (op : CmpOp) (l r : Byte) : Bool :=
  match op with
  | .eq => decide (l.toNat = r.toNat)
  | .ne => decide (l.toNat ≠ r.toNat)
  | .gt => decide (l.toNat > r.toNat)
  | .lt => decide (l.toNat < r.toNat)
  | .ge => decide (l.toNat ≥ r.toNat)
  | .le => decide (l.toNat ≤ r.toNat)

end Sys2Proof.Machine
end

