-- ==== Sys2Proof/Machine/Reserved.lean ====
section
/-! DEFINITION. The four opcodes that are assigned but not executed (30_encoding.md R82): each raises InvalidOpcode with
its opcode byte and changes no state. -/

namespace Sys2Proof.Machine

/-- Opcode 0x09. -/
def execInitReserved (s : State) : Answer := takeError (.invalidOpcode (opcodeByte .init)) s

/-- Opcode 0x0A. -/
def execOutReserved (s : State) : Answer := takeError (.invalidOpcode (opcodeByte .out)) s

/-- Opcode 0x0B. -/
def execClearReserved (s : State) : Answer := takeError (.invalidOpcode (opcodeByte .clear)) s

/-- Opcode 0xFE. -/
def execVerReserved (s : State) : Answer := takeError (.invalidOpcode (opcodeByte .ver)) s

end Sys2Proof.Machine
end

