-- ==== Sys2Proof/Machine/Control.lean ====
section
/-! DEFINITION. JUMP and IF (43_control_flow.md R200 to R206). -/

namespace Sys2Proof.Machine

/-- JUMP (R206): `pc <- target`, and no default advance. -/
def execJump (t : Byte) (s : State) : Answer := completeWith { s with pc := t.toNat }

/-- The condition of an IF (R201, R202): the left register and the right operand resolved in that order and compared.
It changes no state. -/
def condHolds (a : Byte) (op : CmpOp) (o : Source) (s : State) : Except MachError Bool := do
  let i ← regIndex a
  let r ← sourceValue o s
  pure (compareBytes op (getReg s i) r)

/-- A selected clause (R203): the token list decoded as a full instruction, and that instruction run by `f`. -/
def runClause (f : Instr → State → Answer) (line : Line) (toks : List Token) (s : State) : Answer :=
  match decodeTokens line toks with
  | .error e => takeError e s
  | .ok none => completeWith s
  | .ok (some i) => f i s

/-- The choice of an IF (R203, R204): the clause the condition selects, or nothing. The other clause is not looked at. -/
def selectClause (f : Instr → State → Answer) (line : Line) (a : Byte) (op : CmpOp) (o : Source) (th : List Token)
    (el : Option (List Token)) (s : State) : Answer :=
  match condHolds a op o s with
  | .error e => takeError e s
  | .ok true => runClause f line th s
  | .ok false =>
    match el with
    | some ts => runClause f line ts s
    | none => completeWith s

/-- An instruction that a clause holds, IF apart: the meaning it has as a line of its own. An IF stands here only when
the nesting limit is reached. -/
def execLeaf (i : Instr) (s : State) : Answer :=
  match i with
  | .load d m => execLoad d m s
  | .store r m => execStore r m s
  | .add a b c => execAdd a b c s
  | .and a b c => execAnd a b c s
  | .or a b c => execOr a b c s
  | .xor a b c => execXor a b c s
  | .not a b => execNot a b s
  | .jump t => execJump t s
  | .initReserved => execInitReserved s
  | .outReserved => execOutReserved s
  | .clearReserved => execClearReserved s
  | .verReserved => execVerReserved s
  | .halt => execHalt s
  | .nand a b c => execNand a b c s
  | .nor a b c => execNor a b c s
  | .mov dst src => execMov dst src s
  | .qmov f => execQmov f s
  | .init a v => execInit a v s
  | .out t => execOut t s
  | .clear t => execClear t s
  | .ver flag => execVer flag s
  | .ifThen _ _ _ _ _ _ => .refused .ifTooDeep

/-- An instruction with at most `n` levels of IF in it (R205: the recursion ends because every level uses up tokens). -/
def execNested : Nat → Instr → State → Answer
  | n + 1, .ifThen line a op o th el, s => selectClause (execNested n) line a op o th el s
  | _, i, s => execLeaf i s

/-- How many levels an IF with these clauses may have: the limit, or, without one, more than their tokens allow. -/
def ifLevels (th : List Token) (el : Option (List Token)) : Nat :=
  Config.maxIfDepth.getD (th.length + (el.getD []).length + 1)

/-- IF (R200 to R205). -/
def execIf (line : Line) (a : Byte) (op : CmpOp) (o : Source) (th : List Token) (el : Option (List Token))
    (s : State) : Answer :=
  execNested (ifLevels th el) (.ifThen line a op o th el) s

end Sys2Proof.Machine
end

