-- ==== Sys2Proof/Machine/Dispatch.lean ====
section
/-! DEFINITION. One arm per instruction: a direct call of its meaning. -/

namespace Sys2Proof.Machine

/-- The effect of one decoded instruction on the state, the same from either front end (30_encoding.md R71). -/
def exec (i : Instr) (s : State) : Host.Outcome State Fault Refusal :=
  match i with
  | .load d m => Sys2Proof.Machine.execLoad d m s
  | .store r m => Sys2Proof.Machine.execStore r m s
  | .add a b c => Sys2Proof.Machine.execAdd a b c s
  | .and a b c => Sys2Proof.Machine.execAnd a b c s
  | .or a b c => Sys2Proof.Machine.execOr a b c s
  | .xor a b c => Sys2Proof.Machine.execXor a b c s
  | .not a b => Sys2Proof.Machine.execNot a b s
  | .jump t => Sys2Proof.Machine.execJump t s
  | .initReserved => Sys2Proof.Machine.execInitReserved s
  | .outReserved => Sys2Proof.Machine.execOutReserved s
  | .clearReserved => Sys2Proof.Machine.execClearReserved s
  | .verReserved => Sys2Proof.Machine.execVerReserved s
  | .halt => Sys2Proof.Machine.execHalt s
  | .nand a b c => Sys2Proof.Machine.execNand a b c s
  | .nor a b c => Sys2Proof.Machine.execNor a b c s
  | .mov dst src => Sys2Proof.Machine.execMov dst src s
  | .qmov f => Sys2Proof.Machine.execQmov f s
  | .init a v => Sys2Proof.Machine.execInit a v s
  | .out t => Sys2Proof.Machine.execOut t s
  | .clear t => Sys2Proof.Machine.execClear t s
  | .ver flag => Sys2Proof.Machine.execVer flag s
  | .ifThen line a op o th el => Sys2Proof.Machine.execIf line a op o th el s

end Sys2Proof.Machine
end

