-- ==== Sys2Proof/Machine/Engine.lean ====
section
/-! DEFINITION. The Execution Engine's two steps: the binary fetch-decode-execute step (43_control_flow.md R208 to R211)
and the text step (30_encoding.md R88, 43_control_flow.md R215, R216). -/

namespace Sys2Proof.Machine

/-! ### The binary step -/

/-- `k` bytes from address `a` on, one read after another (R208). -/
def fetchBytes : Nat → Nat → State → Except MachError (List Byte)
  | 0, _, _ => .ok []
  | k + 1, a, s => do
    let b ← memRead a s
    let bs ← fetchBytes k (a + 1) s
    pure (b :: bs)

/-- The error a rejected slot raises; `pc` is the slot's address. -/
def rejectError (pc : Nat) : DecodeReject → MachError
  | .invalidOpcode op => .invalidOpcode op
  | .truncated n => .outOfBounds (pc + n)

/-- The instruction at `pc` (R208): the opcode byte is read, then as many operand bytes as it needs, and no others. -/
def fetchInstr (s : State) : Except MachError Instr := do
  let op ← memRead s.pc s
  match opcodeOf op with
  | none => .error (.invalidOpcode op)
  | some o => do
    let bs ← fetchBytes (operandCount o) (s.pc + 1) s
    match decode (op :: bs) with
    | .ok i => .ok i
    | .error r => .error (rejectError s.pc r)

/-- Is the instruction a JUMP, which "skips the default advance" (R206)? -/
def isJump : Instr → Bool
  | .jump _ => true
  | _ => false

/-- The default advance of `pc` (R208): after an instruction that continued, unless it is a JUMP. -/
def advancePc (i : Instr) : Answer → Answer
  | .next t => .next (if t.outcome = .cont ∧ isJump i = false then { t with pc := t.pc + Config.slot } else t)
  | .fault r => .fault r
  | .refused r => .refused r

/-- `StepBinary()` (R208). -/
def stepBinary (s : State) : Answer :=
  match fetchInstr s with
  | .error e => takeError e s
  | .ok i => advancePc i (exec i s)

/-! ### The text step -/

/-- `ExecTokens(t)` (R88). -/
def execTokens (line : Line) (toks : List Token) (s : State) : Answer := runClause exec line toks s

/-- `ExecText(line)` (R88, R215). -/
def execText (line : Line) (s : State) : Answer := execTokens line (tokenise line) s

/-- One turn of `RunText`'s loop (R216): the next line, or the end of a run that ran out of lines. -/
def textTurn (rest : List Line) (s : State) : Answer :=
  match rest with
  | [] => .next { s with run := .idle }
  | l :: ls => execText l { s with run := .running (.text ls) }

/-- One step: the turn of the run loop in progress. Outside a run the machine waits for the host and holds all its
state (60_exceptions.md R256, 70_reset_and_hazards.md R272). -/
def engineStep (s : State) : Answer :=
  match s.run with
  | .running .binary => stepBinary s
  | .running (.text rest) => textTurn rest s
  | .idle => .next s
  | .halted => .next s
  | .stopped _ => .next s

/-! ### Placing one slot for the next fetch -/

/-- Bytes written to consecutive cells from `a` on. -/
def Memory.writeAll : Memory → Nat → List Byte → Memory
  | m, _, [] => m
  | m, a, b :: bs => Memory.writeAll (Memory.write m a b) (a + 1) bs

/-- Where a whole slot can stand for the next fetch: at `pc` if it fits there, else at the start of Memory. -/
def slotAddress (s : State) : Nat := if s.pc + Config.slot ≤ Config.numCells then s.pc else Config.pcStart

/-- The state with a table word's slot where a binary run fetches next, in such a run (log entry 5). -/
def placeWord (s : State) (nbits w : Nat) : State :=
  { s with
    mem := Memory.writeAll s.mem (slotAddress s) (tableSlot nbits w)
    pc := slotAddress s
    run := .running .binary }

end Sys2Proof.Machine
end

