-- ==== Sys2Proof/Machine/Step.lean ====
section
/-! DEFINITION. One step of the machine, and a state whose next step runs a given slot. -/

namespace Sys2Proof.Machine

/-- One step (R208, R212, R216). -/
def step (s : State) : Host.Outcome State Fault Refusal := engineStep s

/-- `s` with the slot of a table word where `step` fetches its next instruction. -/
def State.withFetchWord (s : State) (nbits w : Nat) : State := placeWord s nbits w

end Sys2Proof.Machine
end

