-- ==== Sys2Proof/Machine/Errors.lean ====
section
/-! DEFINITION. The kind of an error and the kind's label (60_exceptions.md R230). -/

namespace Sys2Proof.Machine

/-- The kind of an error. -/
def errorKind : MachError → ErrorKind
  | .outOfBounds _ => .outOfBounds
  | .unknownInstruction _ => .unknownInstruction
  | .arityError _ _ => .arityError
  | .invalidRegister _ => .invalidRegister
  | .invalidAddress _ => .invalidAddress
  | .invalidImmediate _ => .invalidImmediate
  | .invalidFlag _ => .invalidFlag
  | .invalidCondition _ => .invalidCondition
  | .invalidOperandCombination _ => .invalidOperandCombination
  | .invalidDestination _ => .invalidDestination
  | .syntaxError _ => .syntaxError
  | .invalidOpcode _ => .invalidOpcode

/-- The code of a kind, a label only (R230, decision D33). -/
def errorCode : ErrorKind → Nat
  | .outOfBounds => 1
  | .unknownInstruction => 2
  | .arityError => 3
  | .invalidRegister => 4
  | .invalidAddress => 5
  | .invalidImmediate => 6
  | .invalidFlag => 7
  | .invalidCondition => 8
  | .invalidOperandCombination => 9
  | .invalidDestination => 10
  | .syntaxError => 11
  | .invalidOpcode => 12

end Sys2Proof.Machine
end

