-- ==== Sys2Proof/Machine/HostOps.lean ====
section
/-! DEFINITION. The host's operations on the block (00_scope.md R10), each a function of the state. `MemRead` and
`MemWrite` are `memRead` and `memWrite`, `ExecText` is `execText`, `StepBinary` is `stepBinary`; the others are here.
The host calls them between steps only (20_memory.md R61). -/

namespace Sys2Proof.Machine

/-- `Reset()` (R270): every piece of state at its reset value, whatever it was. -/
def hostReset (_ : State) : State := State.reset

/-- A cell as eight characters, bit 7 first (R46). -/
def render (v : Byte) : List Char :=
  [7, 6, 5, 4, 3, 2, 1, 0].map fun i => if v.getLsbD i then '1' else '0'

/-- `Dump(start, length)` (R45): clamped to Memory, never failing, changing nothing. -/
def dump (start length : Nat) (s : State) : List (List Char) :=
  (List.range (min (start + length) Config.numCells - start)).map fun k => render (Memory.read s.mem (start + k))

/-- Bytes written from address `a` on, one `MemWrite` after another; at the first that fails the load ends with its
error and what was written stays (R60). -/
def loadFrom : Nat → List Byte → State → State × Option MachError
  | _, [], s => (s, none)
  | a, b :: bs, s =>
    match memWrite a b s with
    | .ok t => loadFrom (a + 1) bs t
    | .error e => (s, some e)

/-- `LoadImage(bytes)` (R60). -/
def loadImage (bytes : List Byte) (s : State) : State × Option MachError := loadFrom Config.loadBase bytes s

/-- The start of `RunBinary()` (R212): `pc <- 0; run <- Running`, nothing else. -/
def startBinary (s : State) : State := { s with pc := Config.pcStart, run := .running .binary }

/-- The start of `RunText(lines)` (R216): `run <- Running`. -/
def startText (lines : List Line) (s : State) : State := { s with run := .running (.text lines) }

/-- `n` steps, ending early at a refusal (R213: a run may be endless, so it is run under fuel). -/
def runSteps : Nat → State → Answer
  | 0, s => .next s
  | n + 1, s =>
    match step s with
    | .next t => runSteps n t
    | .fault r => .fault r
    | .refused r => .refused r

/-- `RunBinary()` for at most `fuel` steps. -/
def runBinary (fuel : Nat) (s : State) : Answer := runSteps fuel (startBinary s)

/-- `RunText(lines)` (R216): one step for each line and one for the end of the lines. -/
def runText (lines : List Line) (s : State) : Answer := runSteps (lines.length + 1) (startText lines s)

end Sys2Proof.Machine
end

