-- ==== Sys2Proof/Safety.lean ====
section
/-! DEFINITION. What claims about runs are stated in: the invariant of the state, the architectural state two states may
share, and how a run has ended (43_control_flow.md R214). -/

namespace Sys2Proof.Machine

/-- The invariant: memory in its canonical form, and `pc` in the range 10_state.md R24 gives it. -/
abbrev State.Inv (s : State) : Prop := Memory.wf s.mem ∧ s.pc ≤ 259

/-- The state the source names and `pc`, equal in two states (R36). -/
abbrev sameArch (s t : State) : Prop := s.x = t.x ∧ s.mem = t.mem ∧ s.pc = t.pc ∧ s.verbose = t.verbose

/-- The bytes stand in Memory from address `a` on. -/
abbrev bytesAt (s : State) (a : Nat) (bs : List Byte) : Prop :=
  a + bs.length ≤ Config.numCells ∧ ∀ k, (h : k < bs.length) → Memory.read s.mem (a + k) = bs[k]

/-- The digits of a literal in base 2, 10 or 16 (R96): the first `base` of them, and for hex the upper-case letters. -/
def digitChars (base : Nat) : List Char :=
  ['0', '1', '2', '3', '4', '5', '6', '7', '8', '9', 'a', 'b', 'c', 'd', 'e', 'f'].take base ++
    if base = 16 then ['A', 'B', 'C', 'D', 'E', 'F'] else []

/-- The number a digit stands for, in either case of letter (R96). -/
def digitNumber (c : Char) : Nat :=
  if c ∈ ['A', 'B', 'C', 'D', 'E', 'F'] then 10 + ['A', 'B', 'C', 'D', 'E', 'F'].idxOf c
  else ['0', '1', '2', '3', '4', '5', '6', '7', '8', '9', 'a', 'b', 'c', 'd', 'e', 'f'].idxOf c

/-- The characters are one or more digits of the base and denote `n`, leading zeros allowed (R96). -/
def writesNumber (base : Nat) (cs : List Char) (n : Nat) : Prop :=
  cs ≠ [] ∧ (∀ c ∈ cs, c ∈ digitChars base) ∧ cs.foldl (fun acc c => acc * base + digitNumber c) 0 = n

/-- The token is `R`, a decimal literal and perhaps one comma (R93). -/
def regNumeral (tok : Token) (n : Nat) : Prop :=
  ∃ cs, writesNumber 10 cs n ∧ (tok = 'R' :: cs ∨ tok = 'R' :: (cs ++ [',']))

/-- The token is a decimal or hex literal in brackets (R94). -/
def addrNumeral (tok : Token) (n : Nat) : Prop :=
  ∃ cs, (writesNumber 10 cs n ∧ tok = '[' :: (cs ++ [']'])) ∨
    (writesNumber 16 cs n ∧ tok = '[' :: '0' :: 'x' :: (cs ++ [']']))

/-- The token is a decimal, hex or binary literal (R95). -/
def immNumeral (tok : Token) (n : Nat) : Prop :=
  ∃ cs, (writesNumber 10 cs n ∧ tok = cs) ∨ (writesNumber 16 cs n ∧ tok = '0' :: 'x' :: cs) ∨
    (writesNumber 2 cs n ∧ tok = '0' :: 'b' :: cs)

/-- The register operands of an instruction in the order they are checked (R78, R98, R200); an IF's clauses are not
looked at before it is executed. -/
def regOperands : Instr → List Byte
  | .load d _ => [d]
  | .store r _ => [r]
  | .add a b c => [a, b, c]
  | .and a b c => [a, b, c]
  | .or a b c => [a, b, c]
  | .xor a b c => [a, b, c]
  | .not a b => [a, b]
  | .jump _ => []
  | .initReserved => []
  | .outReserved => []
  | .clearReserved => []
  | .verReserved => []
  | .halt => []
  | .nand a b c => [a, b, c]
  | .nor a b c => [a, b, c]
  | .mov (.reg d) (.reg r) => [d, r]
  | .mov (.reg d) (.mem _) => [d]
  | .mov (.reg d) (.imm _) => [d]
  | .mov (.mem _) (.reg r) => [r]
  | .mov (.mem _) (.mem _) => []
  | .mov (.mem _) (.imm _) => []
  | .qmov (.regAddr r _) => [r]
  | .qmov (.addrReg _ r) => [r]
  | .init _ _ => []
  | .out (.reg r) => [r]
  | .out (.imm _) => []
  | .out (.addrShaped _) => []
  | .clear (.reg d) => [d]
  | .clear (.mem _) => []
  | .ver _ => []
  | .ifThen _ a _ (.reg r) _ _ => [a, r]
  | .ifThen _ a _ (.mem _) _ _ => [a]
  | .ifThen _ a _ (.imm _) _ _ => [a]

/-- The one register that LOAD, ADD, AND, OR, XOR, NAND, NOR, NOT and the register forms of MOV and CLEAR write (R22). -/
def regDest : Instr → Option Byte
  | .load d _ => some d
  | .add _ _ c => some c
  | .and _ _ c => some c
  | .or _ _ c => some c
  | .xor _ _ c => some c
  | .not _ b => some b
  | .nand _ _ c => some c
  | .nor _ _ c => some c
  | .mov (.reg d) _ => some d
  | .clear (.reg d) => some d
  | _ => none

/-- The one cell that STORE, INIT and the memory forms of MOV and CLEAR write: the operand byte, absolute (R62). -/
def memDest : Instr → Option Byte
  | .store _ m => some m
  | .init a _ => some a
  | .mov (.mem a) _ => some a
  | .clear (.mem a) => some a
  | _ => none

/-- The instructions that write no register and no cell: OUT, VER, HALT, JUMP and the four reserved opcodes (R22). -/
def writesNothing : Instr → Bool
  | .out _ => true
  | .ver _ => true
  | .halt => true
  | .jump _ => true
  | .initReserved => true
  | .outReserved => true
  | .clearReserved => true
  | .verReserved => true
  | _ => false

/-- A run that ended normally (R214). -/
def normalEnd (s : State) : Bool := decide (s.run = .halted)

/-- A run that an error ended, which is never a normal end (R214). -/
def errorEnd (s : State) : Bool :=
  match s.run with
  | .stopped _ => true
  | .idle => false
  | .running _ => false
  | .halted => false

/-- No run is in progress. -/
def notRunning (s : State) : Bool :=
  match s.run with
  | .running _ => false
  | .idle => true
  | .halted => true
  | .stopped _ => true

/-- The answer is a next state or a refusal of `OUT [addr]`: the only ways a step of this machine ends. -/
def endsWell : Answer → Bool
  | .next _ => true
  | .refused (.outAddressForm _) => true
  | .refused _ => false
  | .fault _ => false

end Sys2Proof.Machine
end

