-- ==== Sys2Proof/Certificates/Slice0/Obligations.lean ====
section
/-! DEFINITION. The statements for the provers. Each docstring names the rules of spec/ it formalises.

Where a next state has an `outcome`, that is what the instruction returns (R13), held in the model's own field (log entry
2), and an error is a next state with that outcome (R246, R247, log entry 7). Where a statement says `signal s o` of a state
outside a run, the run status stays: the spec says so of ExecText (R28), and for a StepBinary it is log entry 4. -/

open Sys2Proof Sys2Proof.Machine

/-! ### Encoding -/

/-- R81, R110, R80: decoding the slot of an instruction gives the instruction back, with every operand byte at every
value and whatever bytes follow. That the slots of the reserved opcodes 0x09, 0x0A, 0x0B and 0xFE are among them, as
instructions whose meaning raises InvalidOpcode, is the model's choice (log entry 16); the spec has the decoder raise it
(R82). That `encode` writes zero in the unused bytes of a slot is the model's choice too (log entry 21). -/
def Obligations.DecodeUndoesEncode : Prop :=
  ∀ (i : Instr) (slot extra : List Byte), encode i = some slot → decode (slot ++ extra) = .ok i

/-- R77, R80: the bytes after an opcode's operand bytes never matter, and the opcode with its operand bytes always
decodes. For the reserved opcodes 0x09, 0x0A, 0x0B and 0xFE this is the model's choice (log entry 16): its decoder accepts
them, with no operand byte, as instructions whose meaning raises InvalidOpcode, where the spec has the decoder raise it. -/
def Obligations.UnusedSlotBytesIgnored : Prop :=
  ∀ (o : Opcode) (used rest : List Byte), used.length = operandCount o →
    ∃ i, decode (opcodeByte o :: used) = .ok i ∧ decode (opcodeByte o :: (used ++ rest)) = .ok i

/-- R99, R93 to R97, R101, R102: the text decoder reads back every well-formed instruction from its tokens. An IF is
read with the line it carries. That every address-shaped token of OUT, `[300]` or a malformed one too, is read as the form
the machine refuses is the model's choice (log entry 8), and so is the spelling `encodeText` writes (log entry 22). -/
def Obligations.TextDecodeUndoesEncode : Prop :=
  ∀ (line : Line) (i : Instr) (toks : List Token), i.wf = true → encodeText i = some toks →
    (∀ l, i.carriedLine = some l → l = line) → decodeTokens line toks = .ok (some i)

/-- R88, R89, R99: a line made of a well-formed instruction's tokens is executed as that instruction: comment strip,
tokens, mnemonic, arity, operands and execution together. That OUT of an address-shaped token that is no address is such
an instruction, and so refused, is the model's choice (log entry 8), and so is the spelling of the line (log entry 22). -/
def Obligations.TextLineRunsItsInstruction : Prop :=
  ∀ (i : Instr) (toks : List Token) (s : State), i.wf = true → encodeText i = some toks →
    (∀ l, i.carriedLine = some l → l = unwords toks) → execText (unwords toks) s = exec i s

/-- R93 to R96 (decisions D16, D17): a register, address or immediate token is accepted exactly where it is a literal of a
form its position allows, with any leading zeros and either case of hex letter, whose number is in range; every other
token, malformed or out of range, is the error of the position. The shortest literals of each base are read so. -/
def Obligations.OperandTokensReadTheirValue : Prop :=
  (∀ (tok : Token) (v : Byte), resolveReg tok = .ok v ↔ ∃ n, regNumeral tok n ∧ n < 8 ∧ v = BitVec.ofNat 8 n) ∧
  (∀ (tok : Token) (v : Byte), resolveAddr tok = .ok v ↔ ∃ n, addrNumeral tok n ∧ n < 256 ∧ v = BitVec.ofNat 8 n) ∧
  (∀ (tok : Token) (v : Byte), resolveImm tok = .ok v ↔ ∃ n, immNumeral tok n ∧ n ≤ 255 ∧ v = BitVec.ofNat 8 n) ∧
  (∀ tok : Token,
    ((¬ ∃ n, regNumeral tok n ∧ n < 8) → resolveReg tok = .error (.invalidRegister (.token (stripComma tok)))) ∧
    ((¬ ∃ n, addrNumeral tok n ∧ n < 256) → resolveAddr tok = .error (.invalidAddress tok)) ∧
    ((¬ ∃ n, immNumeral tok n ∧ n ≤ 255) → resolveImm tok = .error (.invalidImmediate tok))) ∧
  (∀ n : Nat, n ≤ 255 →
    resolveImm (decimal n) = .ok (BitVec.ofNat 8 n) ∧
    resolveImm ('0' :: 'x' :: Nat.toDigits 16 n) = .ok (BitVec.ofNat 8 n) ∧
    resolveImm ('0' :: 'b' :: Nat.toDigits 2 n) = .ok (BitVec.ofNat 8 n) ∧
    resolveAddr ('[' :: (decimal n ++ [']'])) = .ok (BitVec.ofNat 8 n) ∧
    resolveAddr ('[' :: '0' :: 'x' :: (Nat.toDigits 16 n ++ [']'])) = .ok (BitVec.ofNat 8 n)) ∧
  (∀ n : Nat, 255 < n →
    resolveImm (decimal n) = .error (.invalidImmediate (decimal n)) ∧
    resolveImm ('0' :: 'x' :: Nat.toDigits 16 n) = .error (.invalidImmediate ('0' :: 'x' :: Nat.toDigits 16 n)) ∧
    resolveImm ('0' :: 'b' :: Nat.toDigits 2 n) = .error (.invalidImmediate ('0' :: 'b' :: Nat.toDigits 2 n)) ∧
    resolveAddr ('[' :: (decimal n ++ [']'])) = .error (.invalidAddress ('[' :: (decimal n ++ [']']))) ∧
    resolveAddr ('[' :: '0' :: 'x' :: (Nat.toDigits 16 n ++ [']'])) =
      .error (.invalidAddress ('[' :: '0' :: 'x' :: (Nat.toDigits 16 n ++ [']'])))) ∧
  (∀ n : Nat, n < 8 →
    resolveReg ('R' :: decimal n) = .ok (BitVec.ofNat 8 n) ∧
    resolveReg ('R' :: (decimal n ++ [','])) = .ok (BitVec.ofNat 8 n)) ∧
  (∀ n : Nat, 8 ≤ n →
    resolveReg ('R' :: decimal n) = .error (.invalidRegister (.token ('R' :: decimal n))))

/-- R81, R76: a few slots written out from the encoding table decode to the instructions they stand for. That 0x0A decodes,
to an instruction whose meaning raises InvalidOpcode, is the model's choice (log entry 16); the spec has the decoder raise
it (R82). -/
def Obligations.SampleSlotsDecode : Prop :=
  decode [0x01, 0x00, 0x20, 0x00] = .ok (.load 0 0x20) ∧ decode [0x02, 0x02, 0x22, 0x00] = .ok (.store 2 0x22) ∧
  decode [0x03, 0x00, 0x01, 0x02] = .ok (.add 0 1 2) ∧ decode [0x07, 0x01, 0x03, 0xEE] = .ok (.not 1 3) ∧
  decode [0x08, 0x08, 0x5A, 0x00] = .ok (.jump 8) ∧ decode [0x0A, 0x00, 0x00, 0x00] = .ok .outReserved ∧
  decode [0xFF] = .ok .halt ∧ decode [0x0C, 0x00, 0x00, 0x00] = .error (.invalidOpcode 0x0C)

/-- R90: the mnemonic is matched exactly against the fixed set, so an unknown first token, such as `load`, `Load`,
`HALT:` or `JUMP`, fails with UnknownInstruction and changes nothing else. -/
def Obligations.UnknownMnemonicFails : Prop :=
  (∀ (line : Line) (m : Token) (args : List Token) (s : State), tokenise line = m :: args →
    m ∉ ["LOAD", "STORE", "ADD", "AND", "OR", "NAND", "NOR", "XOR", "NOT", "MOV", "QMOV", "INIT", "CLEAR", "OUT", "VER",
      "IF", "HALT"].map String.toList →
    execText line s = .next (signal s (.error (.unknownInstruction m)))) ∧
  (∀ m ∈ ["LOAD", "STORE", "ADD", "AND", "OR", "NAND", "NOR", "XOR", "NOT", "MOV", "QMOV", "INIT", "CLEAR", "OUT", "VER",
      "IF", "HALT"].map String.toList, ∀ (line : Line) (args : List Token),
    decodeTokens line (m :: args) ≠ .error (.unknownInstruction m))

/-- R91: a mnemonic other than IF with another token count than its own fails with ArityError, naming the mnemonic and
the line; with its own count, and for IF with any, no ArityError arises. The counts are the spec's decision D20. -/
def Obligations.WrongTokenCountFails : Prop :=
  (∀ p ∈ ([("LOAD", 3), ("STORE", 3), ("NOT", 3), ("MOV", 3), ("QMOV", 3), ("ADD", 4), ("AND", 4), ("OR", 4),
      ("NAND", 4), ("NOR", 4), ("XOR", 4), ("INIT", 4), ("CLEAR", 2), ("OUT", 2), ("VER", 2), ("HALT", 1)] :
      List (String × Nat)), ∀ (line : Line) (args : List Token),
    (args.length + 1 ≠ p.2 → tokenise line = p.1.toList :: args →
      ∀ s : State, execText line s = .next (signal s (.error (.arityError p.1.toList line)))) ∧
    (args.length + 1 = p.2 → ∀ m l, decodeTokens line (p.1.toList :: args) ≠ .error (.arityError m l))) ∧
  (∀ (line : Line) (args : List Token) (m : Token) (l : Line),
    decodeTokens line ("IF".toList :: args) ≠ .error (.arityError m l))

/-- R100, R239 to R242 (decisions D21, D23, D24, D28): when the decoder raises SyntaxError, InvalidDestination,
InvalidOperandCombination and InvalidCondition, and that nothing else does: INIT whose third of four tokens is not exactly
`=`, before its operands are looked at; MOV or CLEAR with an immediate-shaped destination; QMOV whose two shapes are not
one register and one address, before their values are looked at; IF that is not `Ra`, an operator, one operand and `THEN`
with the first THEN there. INIT with another token count is ArityError, whatever the tokens, and `INIT [5] = 3` is
accepted. -/
def Obligations.SeparatorAndShapesAreChecked : Prop :=
  (∀ (line : Line) (t1 t2 t3 : Token), t2 ≠ ['='] →
    decodeTokens line ["INIT".toList, t1, t2, t3] = .error (.syntaxError line)) ∧
  (∀ (line : Line) (t1 t3 : Token) (l : Line),
    decodeTokens line ["INIT".toList, t1, ['='], t3] ≠ .error (.syntaxError l)) ∧
  (∀ (line : Line) (args : List Token), args.length ≠ 3 →
    decodeTokens line ("INIT".toList :: args) = .error (.arityError "INIT".toList line)) ∧
  (∀ line : Line, decodeTokens line (["INIT", "[5]", "=", "3"].map String.toList) = .ok (some (.init 5 3))) ∧
  (∀ (line : Line) (ts : List Token) (l : Line), decodeTokens line ts = .error (.syntaxError l) ↔
    l = line ∧ ∃ t1 t2 t3, ts = ["INIT".toList, t1, t2, t3] ∧ t2 ≠ ['=']) ∧
  (∀ (line : Line) (ts : List Token) (tok : Token), decodeTokens line ts = .error (.invalidDestination tok) ↔
    (ts = ["CLEAR".toList, tok] ∨ ∃ src, ts = ["MOV".toList, tok, src]) ∧
      tok.head? ≠ some 'R' ∧ tok.head? ≠ some '[') ∧
  (∀ (line : Line) (ts : List Token) (l : Line), decodeTokens line ts = .error (.invalidOperandCombination l) ↔
    l = line ∧ ∃ t1 t2, ts = ["QMOV".toList, t1, t2] ∧
      ¬ (t1.head? = some 'R' ∧ t2.head? = some '[') ∧ ¬ (t1.head? = some '[' ∧ t2.head? = some 'R')) ∧
  (∀ (line : Line) (ts : List Token) (l : Line), decodeTokens line ts = .error (.invalidCondition l) ↔
    l = line ∧ ∃ args, ts = "IF".toList :: args ∧
      ¬ ∃ ra op o rest, args = ra :: op :: o :: "THEN".toList :: rest ∧ (stripComma ra).head? = some 'R' ∧
        op ∈ ["==", "!=", ">", "<", ">=", "<="].map String.toList ∧ o ≠ "THEN".toList)

/-! ### The step -/

/-- R208: when the bytes at `pc` decode to `i`, the step of a binary run is `exec i`, and then, if the instruction
continued and is no JUMP, `pc` advances by 4. -/
def Obligations.StepRunsDecodedInstruction : Prop :=
  ∀ (s : State) (bs : List Byte) (i : Instr), s.run = .running .binary → bytesAt s s.pc bs → decode bs = .ok i →
    (∀ t, exec i s = .next t →
      step s = .next (if t.outcome = .cont ∧ isJump i = false then { t with pc := t.pc + 4 } else t)) ∧
    (∀ r, exec i s = .refused r → step s = .refused r)

/-- 43_control_flow.md section 4 and log entries 3 and 4, the model's choices: the step of a text run executes the next
line with the later ones left; with none left the run is Idle; outside a run a step leaves the state as it is. -/
def Obligations.TextAndWaitingSteps : Prop :=
  (∀ (s : State) (l : Line) (ls : List Line), s.run = .running (.text (l :: ls)) →
    step s = execText l { s with run := .running (.text ls) }) ∧
  (∀ s : State, s.run = .running (.text []) → step s = .next { s with run := .idle }) ∧
  (∀ s : State, notRunning s = true → step s = .next s)

/-- R88: a line without tokens continues and changes nothing; a line whose tokens decode runs the instruction; a line
whose tokens do not decode raises the decoder's error. -/
def Obligations.ExecTextRunsDecodedTokens : Prop :=
  ∀ (line : Line) (s : State),
    (tokenise line = [] → execText line s = .next { s with outcome := .cont }) ∧
    (∀ i, decodeTokens line (tokenise line) = .ok (some i) → execText line s = exec i s) ∧
    (∀ e, decodeTokens line (tokenise line) = .error e → execText line s = .next (signal s (.error e)))

/-- 10_state.md section 4 (decision D40): what an outcome does to the run status, and that it touches nothing else. The spec
says of an ExecText that outside a run its outcome leaves the run status; that this holds of every outcome outside a run,
that of a StepBinary too, is the model's choice (log entry 4). -/
def Obligations.OutcomeSettlesTheRun : Prop :=
  ∀ (s : State) (o : StepOutcome),
    sameArch (signal s o) s ∧ (signal s o).diag = s.diag ∧ (signal s o).outcome = o ∧
    (signal s .cont).run = s.run ∧
    (∀ l, s.run = .running l → (signal s .halt).run = .halted ∧ ∀ e, (signal s (.error e)).run = .stopped e) ∧
    (notRunning s = true → (signal s o).run = s.run)

/-- R82: "Any opcode byte outside this set fails with InvalidOpcode and aborts the run": the four reserved bytes exactly
like the unassigned ones. -/
def Obligations.RejectedOpcodesStopTheRun : Prop :=
  ∀ s : State, s.run = .running .binary → s.pc < 256 →
    (∀ op ∈ ([0x01, 0x02, 0x03, 0x04, 0x05, 0x06, 0x07, 0x08, 0xFF] : List Byte), Memory.read s.mem s.pc ≠ op) →
    step s = .next { s with
      outcome := .error (.invalidOpcode (Memory.read s.mem s.pc))
      run := .stopped (.invalidOpcode (Memory.read s.mem s.pc)) }

/-- 43_control_flow.md section 3 (R209, decisions D3, D4): `pc` does not wrap; a fetch at 256 or above raises OutOfBounds of
`pc`; an opcode in Memory that needs a byte at 256 raises OutOfBounds of 256, and one whose bytes are all in Memory, as all
are with `pc` at most 252, is fetched; every byte in Memory that is not one of the nine executed opcodes, the four reserved
ones too, raises InvalidOpcode, at 255 too. That the reserved opcodes are fetched, with no operand byte, and raise it when
executed is the model's choice (log entry 16). -/
def Obligations.FetchStopsAtTheTopOfMemory : Prop :=
  (∀ s : State, s.run = .running .binary → 256 ≤ s.pc →
    step s = .next { s with outcome := .error (.outOfBounds s.pc), run := .stopped (.outOfBounds s.pc) }) ∧
  (∀ (s : State) (o : Opcode), s.pc < 256 → opcodeOf (Memory.read s.mem s.pc) = some o →
    (256 ≤ s.pc + operandCount o → s.run = .running .binary →
      step s = .next { s with outcome := .error (.outOfBounds 256), run := .stopped (.outOfBounds 256) }) ∧
    (s.pc + operandCount o < 256 → ∃ i, fetchInstr s = .ok i)) ∧
  (∀ s : State, s.pc < 256 → opcodeOf (Memory.read s.mem s.pc) = none →
    fetchInstr s = .error (.invalidOpcode (Memory.read s.mem s.pc))) ∧
  (∀ s : State, s.run = .running .binary → s.pc < 256 →
    (∀ op ∈ ([0x01, 0x02, 0x03, 0x04, 0x05, 0x06, 0x07, 0x08, 0xFF] : List Byte), Memory.read s.mem s.pc ≠ op) →
    step s = .next { s with
      outcome := .error (.invalidOpcode (Memory.read s.mem s.pc))
      run := .stopped (.invalidOpcode (Memory.read s.mem s.pc)) }) ∧
  (∀ o : Opcode, 252 + operandCount o < 256) ∧
  (∀ o : Opcode, 253 + operandCount o < 256 ↔ o ∉ [Opcode.add, .and, .or, .xor]) ∧
  (∀ o : Opcode, 254 + operandCount o < 256 ↔ o ∉ [Opcode.load, .store, .add, .and, .or, .xor, .not]) ∧
  (∀ o : Opcode, 255 + operandCount o < 256 ↔ o ∉ [Opcode.load, .store, .add, .and, .or, .xor, .not, .jump])

/-- R25 (decision D9 for HALT and errors): what each binary instruction does to `pc`; a binary run starts at 0; no text
line reads or writes `pc`. -/
def Obligations.ProgramCounterRule : Prop :=
  (∀ (s t : State) (i : Instr), fetchInstr s = .ok i → stepBinary s = .next t →
    (t.outcome = .cont → t.pc = match i with
      | .jump tt => tt.toNat
      | _ => s.pc + 4) ∧
    (t.outcome ≠ .cont → t.pc = s.pc)) ∧
  (∀ (s t : State) (e : MachError), fetchInstr s = .error e → stepBinary s = .next t → t.pc = s.pc) ∧
  (∀ s : State, (startBinary s).pc = 0) ∧
  (∀ (line : Line) (s t : State), execText line s = .next t →
    t.pc = s.pc ∧ ∀ p : Nat, execText line { s with pc := p } = .next { t with pc := p })

/-! ### Results: every instruction completes -/

/-- R127: ADD writes the sum modulo 256 to the third register. -/
def Obligations.AddWritesTheSum : Prop :=
  ∀ (s : State) (a b c : Byte) (ha : a.toNat < 8) (hb : b.toNat < 8) (hc : c.toNat < 8),
    exec (.add a b c) s = .next { s with
      x := s.x.set c.toNat (BitVec.ofNat 8 ((s.x[a.toNat].toNat + s.x[b.toNat].toNat) % 256))
      outcome := .cont }

/-- R128 to R132 with R120 to R125: AND, OR, XOR, NAND and NOR write the bitwise result to the third register. -/
def Obligations.LogicInstructionsWriteBitwise : Prop :=
  ∀ (s : State) (a b c : Byte) (ha : a.toNat < 8) (hb : b.toNat < 8) (hc : c.toNat < 8),
    ∀ p ∈ ([(Instr.and a b c, fun u v => u && v), (.or a b c, fun u v => u || v), (.xor a b c, fun u v => xor u v),
      (.nand a b c, fun u v => !(u && v)), (.nor a b c, fun u v => !(u || v))] : List (Instr × (Bool → Bool → Bool))),
    ∃ w : Byte, (∀ k, k < 8 → w.getLsbD k = p.2 (s.x[a.toNat].getLsbD k) (s.x[b.toNat].getLsbD k)) ∧
      exec p.1 s = .next { s with x := s.x.set c.toNat w, outcome := .cont }

/-- R133, R123: NOT writes 255 minus its source to its destination. -/
def Obligations.NotWritesTheComplement : Prop :=
  ∀ (s : State) (a b : Byte) (ha : a.toNat < 8) (hb : b.toNat < 8),
    exec (.not a b) s = .next { s with
      x := s.x.set b.toNat (BitVec.ofNat 8 (255 - s.x[a.toNat].toNat))
      outcome := .cont }

/-- R150: LOAD copies a cell to a register. -/
def Obligations.LoadCopiesTheCell : Prop :=
  ∀ (s : State) (d m : Byte) (hd : d.toNat < 8),
    exec (.load d m) s = .next { s with x := s.x.set d.toNat (Memory.read s.mem m.toNat), outcome := .cont }

/-- R151: STORE copies a register to a cell; no other cell and nothing else changes. -/
def Obligations.StoreCopiesTheRegister : Prop :=
  ∀ (s : State) (r m : Byte) (hr : r.toNat < 8), Memory.wf s.mem →
    ∃ mem', exec (.store r m) s = .next { s with mem := mem', outcome := .cont } ∧ Memory.wf mem' ∧
      Memory.read mem' m.toNat = s.x[r.toNat] ∧ ∀ a, a ≠ m.toNat → Memory.read mem' a = Memory.read s.mem a

/-- R153 to R158: the six forms of MOV. -/
def Obligations.MovCopiesInAllSixForms : Prop :=
  ∀ (s : State) (d r a b v : Byte) (hd : d.toNat < 8) (hr : r.toNat < 8), Memory.wf s.mem →
    exec (.mov (.reg d) (.reg r)) s = .next { s with x := s.x.set d.toNat s.x[r.toNat], outcome := .cont } ∧
    exec (.mov (.reg d) (.mem a)) s =
      .next { s with x := s.x.set d.toNat (Memory.read s.mem a.toNat), outcome := .cont } ∧
    exec (.mov (.reg d) (.imm v)) s = .next { s with x := s.x.set d.toNat v, outcome := .cont } ∧
    (∀ p ∈ [(Source.reg r, s.x[r.toNat]), (.mem b, Memory.read s.mem b.toNat), (.imm v, v)],
      ∃ mem', exec (.mov (.mem a) p.1) s = .next { s with mem := mem', outcome := .cont } ∧
        Memory.read mem' a.toNat = p.2 ∧ ∀ c, c ≠ a.toNat → Memory.read mem' c = Memory.read s.mem c)

/-- R159 to R161: QMOV moves its first operand to its second and then zeroes the first. The order is the spec's decision
D22 (90_conflicts.md C1), the value of `Config.qmovOrder`. -/
def Obligations.QmovMovesAndClears : Prop :=
  ∀ (s : State) (r a : Byte) (hr : r.toNat < 8), Memory.wf s.mem →
    (∃ mem', exec (.qmov (.regAddr r a)) s = .next { s with x := s.x.set r.toNat 0, mem := mem', outcome := .cont } ∧
      Memory.read mem' a.toNat = s.x[r.toNat] ∧ ∀ c, c ≠ a.toNat → Memory.read mem' c = Memory.read s.mem c) ∧
    (∃ mem', exec (.qmov (.addrReg a r)) s =
        .next { s with x := s.x.set r.toNat (Memory.read s.mem a.toNat), mem := mem', outcome := .cont } ∧
      Memory.read mem' a.toNat = 0 ∧ ∀ c, c ≠ a.toNat → Memory.read mem' c = Memory.read s.mem c)

/-- R163: INIT writes its immediate to its cell. -/
def Obligations.InitWritesTheValue : Prop :=
  ∀ (s : State) (a v : Byte), Memory.wf s.mem →
    ∃ mem', exec (.init a v) s = .next { s with mem := mem', outcome := .cont } ∧
      Memory.read mem' a.toNat = v ∧ ∀ c, c ≠ a.toNat → Memory.read mem' c = Memory.read s.mem c

/-- R165, R166: CLEAR sets a register or a cell to 0. -/
def Obligations.ClearZeroesItsTarget : Prop :=
  (∀ (s : State) (d : Byte) (hd : d.toNat < 8),
    exec (.clear (.reg d)) s = .next { s with x := s.x.set d.toNat 0, outcome := .cont }) ∧
  (∀ (s : State) (a : Byte), Memory.wf s.mem →
    ∃ mem', exec (.clear (.mem a)) s = .next { s with mem := mem', outcome := .cont } ∧
      Memory.read mem' a.toNat = 0 ∧ ∀ c, c ≠ a.toNat → Memory.read mem' c = Memory.read s.mem c)

/-- R180, R181: OUT appends its value to the diagnostic stream and changes nothing else, whatever the verbose flag. -/
def Obligations.OutAppendsTheEvent : Prop :=
  (∀ (s : State) (r : Byte) (hr : r.toNat < 8),
    exec (.out (.reg r)) s = .next { s with diag := s.diag ++ [.out s.x[r.toNat]], outcome := .cont }) ∧
  (∀ (s : State) (v : Byte), exec (.out (.imm v)) s = .next { s with diag := s.diag ++ [.out v], outcome := .cont })

/-- R182: "This spec gives it no behaviour: a model refuses the form": OUT of an address is refused. That the form is
refused by its shape alone, so that OUT of a bracketed text that is no address, such as `[300]`, is refused too and raises
no InvalidAddress, is the model's choice (log entry 8). -/
def Obligations.OutOfAnAddressIsRefused : Prop :=
  (∀ (s : State) (tok : Token), exec (.out (.addrShaped tok)) s = .refused (.outAddressForm tok)) ∧
  (∀ (line : Line) (s : State) (cs : List Char), tokenise line = ["OUT".toList, '[' :: cs] →
    execText line s = .refused (.outAddressForm ('[' :: cs)))

/-- 42_diag_system.md section 2 (R183): VER sets the verbose flag and nothing else; as a line it takes exactly one token,
`0` or `1`, and any other is InvalidFlag; its opcode byte is rejected by the binary step (R82). That a StepBinary outside a
run, which the last clause takes in, leaves the run status is the model's choice (log entry 4). -/
def Obligations.VerSetsTheFlag : Prop :=
  (∀ (s : State) (b : Bool), exec (.ver b) s = .next { s with verbose := b, outcome := .cont }) ∧
  (∀ (line : Line) (tok : Token) (s : State), tokenise line = ["VER".toList, tok] →
    execText line s =
      if tok = ['0'] then .next { s with verbose := false, outcome := .cont }
      else if tok = ['1'] then .next { s with verbose := true, outcome := .cont }
      else .next (signal s (.error (.invalidFlag tok)))) ∧
  (∀ (line : Line) (args : List Token) (s : State), tokenise line = "VER".toList :: args → args.length ≠ 1 →
    execText line s = .next (signal s (.error (.arityError "VER".toList line)))) ∧
  (∀ s : State, s.pc < 256 → Memory.read s.mem s.pc = 0xFE →
    stepBinary s = .next (signal s (.error (.invalidOpcode 0xFE))))

/-- 42_diag_system.md section 3 (decision D9 for `pc`): HALT answers Halt, changes nothing else, and ends a run as
Halted; as a step of a binary run it keeps the address of the HALT in `pc`, wherever it stands. -/
def Obligations.HaltEndsTheRun : Prop :=
  (∀ s : State, exec .halt s = .next (signal s .halt)) ∧
  (∀ s : State, s.run = .running .binary → s.pc < 256 → Memory.read s.mem s.pc = 0xFF →
    step s = .next { s with outcome := .halt, run := .halted })

/-- R206: JUMP sets `pc` to its operand byte, changes nothing else and skips the default advance; it fails only where its
operand byte lies outside Memory; it has no text encoding. -/
def Obligations.JumpSetsTheProgramCounter : Prop :=
  (∀ (s : State) (t : Byte), exec (.jump t) s = .next { s with pc := t.toNat, outcome := .cont }) ∧
  (∀ s : State, s.run = .running .binary → s.pc < 255 → Memory.read s.mem s.pc = 0x08 →
    step s = .next { s with pc := (Memory.read s.mem (s.pc + 1)).toNat, outcome := .cont }) ∧
  (∀ s : State, s.run = .running .binary → s.pc = 255 → Memory.read s.mem 255 = 0x08 →
    step s = .next { s with outcome := .error (.outOfBounds 256), run := .stopped (.outOfBounds 256) }) ∧
  (∀ t : Byte, encodeText (.jump t) = none)

/-- R82 for the effect: a reserved opcode raises InvalidOpcode with its byte, changing nothing. That executing an
instruction is what raises it is the model's choice (log entry 16); the spec has the decoder raise it, and what the step
does with the four bytes is RejectedOpcodesStopTheRun. -/
def Obligations.ReservedOpcodesRaise : Prop :=
  ∀ s : State,
    exec .initReserved s = .next (signal s (.error (.invalidOpcode 0x09))) ∧
    exec .outReserved s = .next (signal s (.error (.invalidOpcode 0x0A))) ∧
    exec .clearReserved s = .next (signal s (.error (.invalidOpcode 0x0B))) ∧
    exec .verReserved s = .next (signal s (.error (.invalidOpcode 0xFE)))

/-- R203: an IF runs its then-clause when the comparison holds, its else-clause when it does not and there is one, and
otherwise continues with nothing changed; a clause is run as a full instruction, to any depth of nesting, and an empty
clause continues. The clause that is not selected plays no part (R204). The spec marks as its own inference that an empty
clause continues and that the other clause is not looked at. -/
def Obligations.IfRunsTheSelectedClause : Prop :=
  ∀ (line : Line) (a : Byte) (op : CmpOp) (o : Source) (th : List Token) (el : Option (List Token)) (s : State)
    (ha : a.toNat < 8) (v : Byte), sourceValue o s = .ok v →
    (compareBytes op s.x[a.toNat] v = true → exec (.ifThen line a op o th el) s = execTokens line th s) ∧
    (compareBytes op s.x[a.toNat] v = false → ∀ ts, el = some ts →
      exec (.ifThen line a op o th el) s = execTokens line ts s) ∧
    (compareBytes op s.x[a.toNat] v = false → el = none →
      exec (.ifThen line a op o th el) s = .next { s with outcome := .cont }) ∧
    (∀ (toks : List Token) (i : Instr), decodeTokens line toks = .ok (some i) → execTokens line toks s = exec i s) ∧
    execTokens line [] s = .next { s with outcome := .cont }

/-- R218: the worked example of IF with ADD and CLEAR, as an instruction and as a line, from every state: the branch that
R0 > 5 selects is taken, and R2 becomes the sum or 0. -/
def Obligations.IfWorkedExample : Prop :=
  ∀ (line : Line) (s : State),
    (5 < s.x[0].toNat → ∃ t : State,
      t = { s with x := s.x.set 2 (BitVec.ofNat 8 ((s.x[0].toNat + s.x[1].toNat) % 256)), outcome := .cont } ∧
      exec (.ifThen line 0 .gt (.imm 5) (["ADD", "R0", "R1", "R2"].map String.toList)
        (some (["CLEAR", "R2"].map String.toList))) s = .next t ∧
      execText "IF R0 > 5 THEN ADD R0 R1 R2 ELSE CLEAR R2".toList s = .next t) ∧
    (s.x[0].toNat ≤ 5 → ∃ t : State, t = { s with x := s.x.set 2 0, outcome := .cont } ∧
      exec (.ifThen line 0 .gt (.imm 5) (["ADD", "R0", "R1", "R2"].map String.toList)
        (some (["CLEAR", "R2"].map String.toList))) s = .next t ∧
      execText "IF R0 > 5 THEN ADD R0 R1 R2 ELSE CLEAR R2".toList s = .next t)

/-- R202: the six comparisons, on unsigned values: each is a truth value and no state. -/
def Obligations.ComparisonsAreUnsigned : Prop :=
  ∀ l r : Byte,
    (compareBytes .eq l r = true ↔ l.toNat = r.toNat) ∧ (compareBytes .ne l r = true ↔ l.toNat ≠ r.toNat) ∧
    (compareBytes .gt l r = true ↔ r.toNat < l.toNat) ∧ (compareBytes .lt l r = true ↔ l.toNat < r.toNat) ∧
    (compareBytes .ge l r = true ↔ r.toNat ≤ l.toNat) ∧ (compareBytes .le l r = true ↔ l.toNat ≤ r.toNat)

/-- 30_encoding.md B.3 (decision D7): an instruction with a register operand of 8 or more raises InvalidRegister with
the first such byte in the order of its operands, and changes nothing else. That `exec` does so for a text-only
instruction too, which no token can make, is the model's choice (log entry 13). -/
def Obligations.BadRegisterByteRaises : Prop :=
  ∀ (i : Instr) (s : State) (b : Byte), (regOperands i).find? (fun r => !decide (r.toNat < 8)) = some b →
    exec i s = .next (signal s (.error (.invalidRegister (.byte b))))

/-- R98, R246: a well-formed instruction completes from every state, HALT with Halt and every other with Continue. Left out
are IF (its clause decides, IfRunsTheSelectedClause), OUT of an address (refused) and the four reserved opcodes (they raise
InvalidOpcode). -/
def Obligations.WellFormedInstructionsComplete : Prop :=
  ∀ (i : Instr) (s : State), i.wf = true → i.carriedLine = none → (∀ tok, i ≠ .out (.addrShaped tok)) →
    i ≠ .initReserved → i ≠ .outReserved → i ≠ .clearReserved → i ≠ .verReserved →
    ∃ t, exec i s = .next t ∧ t.outcome = if i = .halt then .halt else .cont

/-! ### Frames -/

/-- R22: LOAD, ADD, AND, OR, XOR, NAND, NOR, NOT and the register forms of MOV and CLEAR change no register but their
destination, no byte of memory, no `pc` (the binary advance is the step's), no verbose flag and no event. -/
def Obligations.RegisterInstructionFrame : Prop :=
  ∀ (i : Instr) (d : Byte) (s t : State), regDest i = some d → exec i s = .next t →
    (∀ k, (hk : k < 8) → k ≠ d.toNat → t.x[k] = s.x[k]) ∧ (∀ a, memRead a t = memRead a s) ∧
    t.pc = s.pc ∧ t.verbose = s.verbose ∧ t.diag = s.diag

/-- R22, R43, R62: STORE, INIT and the memory forms of MOV and CLEAR change no register, and no byte of memory but the
one at their operand address; `pc`, the verbose flag and the events stay. -/
def Obligations.StoringInstructionFrame : Prop :=
  ∀ (i : Instr) (m : Byte) (s t : State), memDest i = some m → exec i s = .next t →
    t.x = s.x ∧ (∀ a, a ≠ m.toNat → memRead a t = memRead a s) ∧
    t.pc = s.pc ∧ t.verbose = s.verbose ∧ t.diag = s.diag

/-- R22, R160, R161: QMOV, in both forms, changes no register but its register operand and no byte of memory but the one
at its address operand. -/
def Obligations.QmovFrame : Prop :=
  ∀ (f : QmovForm) (r a : Byte) (s t : State), (f = .regAddr r a ∨ f = .addrReg a r) → exec (.qmov f) s = .next t →
    (∀ k, (hk : k < 8) → k ≠ r.toNat → t.x[k] = s.x[k]) ∧ (∀ b, b ≠ a.toNat → memRead b t = memRead b s) ∧
    t.pc = s.pc ∧ t.verbose = s.verbose ∧ t.diag = s.diag

/-- R22, R180 to R185, R206, R82: OUT, VER, HALT, JUMP and the reserved opcodes change no register and no byte of memory;
only OUT appends an event, only VER writes the verbose flag, only JUMP writes `pc`. That the reserved opcodes are
instructions with a meaning of their own is the model's choice (log entry 16). -/
def Obligations.SystemInstructionFrame : Prop :=
  ∀ (i : Instr) (s t : State), writesNothing i = true → exec i s = .next t →
    t.x = s.x ∧ (∀ a, memRead a t = memRead a s) ∧
    ((∀ o, i ≠ .out o) → t.diag = s.diag) ∧ ((∀ b, i ≠ .ver b) → t.verbose = s.verbose) ∧
    (isJump i = false → t.pc = s.pc)

/-! ### The whole machine -/

/-- 60_exceptions.md section 3 (R246): an instruction, a line or a binary step that ends in an error has changed no
register, no cell, no verbose flag, no event and no `pc`; a run it was part of is Stopped with that error (R28, R247).
Outside a run the run status stays, which the spec says of an ExecText (R28) and which for a StepBinary is the model's
choice (log entry 4). -/
def Obligations.ErrorsArePrecise : Prop :=
  ∀ (s t : State) (e : MachError), t.outcome = .error e →
    ((∃ i, exec i s = .next t) ∨ (∃ line, execText line s = .next t) ∨ stepBinary s = .next t) →
    sameArch t s ∧ t.diag = s.diag ∧ (∀ l, s.run = .running l → t.run = .stopped e) ∧
    (notRunning s = true → t.run = s.run)

/-- Every answer is a next state, but for OUT of an address: no fault, for an error is a next state (log entry 7), no
instruction without a meaning, and the nesting of IF is never too deep (R205, decision D31). OUT of any address-shaped
token counts as OUT of an address (log entry 8). -/
def Obligations.NothingElseStops : Prop :=
  (∀ (i : Instr) (s : State), endsWell (exec i s) = true) ∧ ∀ s : State, endsWell (step s) = true

/-- R24, R31: every step keeps memory in its canonical form inside the 256 cells and `pc` in the range 0 to 259. -/
def Obligations.StepKeepsTheInvariant : Prop := ∀ s t : State, s.Inv → step s = .next t → t.Inv

/-- The invariant holds at reset. -/
def Obligations.ResetMeetsTheInvariant : Prop := State.reset.Inv

/-- The host's operations (R10) keep the invariant too: a reset, a write, an image load, the execution of a line in or
outside a run, the start of either run, and a single binary step. `withFetchWord`, which is no operation of R10 but the
model's helper (log entry 5), keeps it as well. Dump and a read change no state. -/
def Obligations.HostOperationsKeepTheInvariant : Prop :=
  ∀ s : State, s.Inv →
    (hostReset s).Inv ∧ (∀ (a : Nat) (v : Byte) (t : State), memWrite a v s = .ok t → t.Inv) ∧
    (∀ bytes : List Byte, (loadImage bytes s).1.Inv) ∧
    (∀ (line : Line) (t : State), execText line s = .next t → t.Inv) ∧
    (∀ lines : List Line, (startText lines s).Inv) ∧ (startBinary s).Inv ∧
    (∀ t : State, stepBinary s = .next t → t.Inv) ∧ (∀ nbits w : Nat, (s.withFetchWord nbits w).Inv)

/-- R187: no step of a binary run writes the diagnostic stream or changes the verbose flag. -/
def Obligations.BinaryStepsLeaveDiagAndVerbose : Prop :=
  ∀ s t : State, stepBinary s = .next t → t.diag = s.diag ∧ t.verbose = s.verbose

/-- R30: no instruction ever removes or changes an event: each appends one or none, and only OUT, or an IF whose clause
is that OUT, appends one. -/
def Obligations.DiagnosticStreamOnlyGrows : Prop :=
  ∀ (i : Instr) (s t : State), exec i s = .next t →
    (t.diag = s.diag ∨ ∃ v, t.diag = s.diag ++ [.out v]) ∧
    ((∀ o, i ≠ .out o) → i.carriedLine = none → t.diag = s.diag)

/-- R36, R27, R30: two states with equal registers, memory and `pc` behave identically under every instruction, whatever
their verbose flags, run statuses, past events and last outcomes. R36 marks this as the spec's own inference. -/
def Obligations.BookkeepingIsNeverRead : Prop :=
  ∀ (i : Instr) (s s' : State), s.x = s'.x → s.mem = s'.mem → s.pc = s'.pc →
    (∀ r, exec i s = .refused r → exec i s' = .refused r) ∧
    (∀ t, exec i s = .next t → ∃ t', exec i s' = .next t' ∧ t.x = t'.x ∧ t.mem = t'.mem ∧ t.pc = t'.pc ∧
      t.outcome = t'.outcome ∧ (s.verbose = s'.verbose → t.verbose = t'.verbose) ∧
      ∃ es, t.diag = s.diag ++ es ∧ t'.diag = s'.diag ++ es)

/-- R71, R217: for the operations both front ends share, the binary step on the instruction's slot and the execution of
its text line give the same registers, memory, verbose flag, events, outcome and run status; only `pc` differs. That the
run status agrees outside a run, where a StepBinary leaves it as an ExecText does, is the model's choice (log entry 4), and
so are the zeros in the unused bytes of the slot, which no step reads (log entry 21), and the spelling of the line (log
entry 22). -/
def Obligations.TextAndBinaryAgree : Prop :=
  ∀ (s t : State) (i : Instr) (slot : List Byte) (toks : List Token),
    i.wf = true → encode i = some slot → encodeText i = some toks → bytesAt s s.pc slot → stepBinary s = .next t →
    ∃ u, execText (unwords toks) s = .next u ∧ u.x = t.x ∧ u.mem = t.mem ∧ u.verbose = t.verbose ∧ u.diag = t.diag ∧
      u.outcome = t.outcome ∧ u.run = t.run ∧ u.pc = s.pc ∧
      t.pc = if t.outcome = .cont then s.pc + 4 else s.pc

/-- R216, R284: a text run always terminates: after enough steps no run is in progress. How many steps are enough, one for
each line and one more for the end of the lines, is the model's choice (log entry 3), which spreads `RunText` over steps. -/
def Obligations.TextRunsTerminate : Prop :=
  ∀ (lines : List Line) (s t : State), runText lines s = .next t → notRunning t = true

/-- R213: a binary run has no step limit: a JUMP to its own address runs for ever and changes nothing. -/
def Obligations.JumpToItselfNeverEnds : Prop :=
  ∀ s : State, s.run = .running .binary → s.outcome = .cont → s.pc < 255 → Memory.read s.mem s.pc = 0x08 →
    (Memory.read s.mem (s.pc + 1)).toNat = s.pc → ∀ n : Nat, runSteps n s = .next s

/-- 43_control_flow.md section 4 (decision D7 for InvalidRegister): the only errors that stop a binary run are
InvalidOpcode, OutOfBounds and InvalidRegister. -/
def Obligations.BinaryRunErrors : Prop :=
  ∀ (s t : State) (e : MachError), stepBinary s = .next t → t.outcome = .error e →
    errorKind e ∈ [ErrorKind.invalidOpcode, .outOfBounds, .invalidRegister]

/-- R57, R277 (decision D39): a STORE into the next slot's opcode is what the very next fetch reads. -/
def Obligations.StoreIsSeenByTheNextFetch : Prop :=
  ∀ (s : State) (r m : Byte) (hr : r.toNat < 8), s.run = .running .binary → Memory.wf s.mem →
    bytesAt s s.pc [0x02, r, m] → m.toNat = s.pc + 4 →
    ∃ t, step s = .next t ∧ t.pc = m.toNat ∧ t.run = .running .binary ∧ memRead t.pc t = .ok s.x[r.toNat]

/-! ### Memory and the host's operations -/

/-- R42, R43, and R44, which follows from them: an access at 256 or above fails with OutOfBounds and its address; below, a
read returns the cell and changes nothing, a write overwrites the cell and nothing else, so that a read after it returns
the value written and a read of another address what it returned before. -/
def Obligations.ReadAfterWrite : Prop :=
  ∀ (a : Nat) (v : Byte) (s : State), Memory.wf s.mem →
    (a < 256 → memRead a s = .ok (Memory.read s.mem a) ∧
      ∃ mem', memWrite a v s = .ok { s with mem := mem' } ∧ memRead a { s with mem := mem' } = .ok v ∧
        ∀ b, b ≠ a → memRead b { s with mem := mem' } = memRead b s) ∧
    (256 ≤ a → memRead a s = .error (.outOfBounds a) ∧ memWrite a v s = .error (.outOfBounds a))

/-- R45: a dump is clamped to Memory, never fails, and is empty from 256 on or, by the spec's own inference, for length 0.
The order of the characters of a cell is general knowledge (log entry 19). -/
def Obligations.DumpIsClamped : Prop :=
  ∀ (start length : Nat) (s : State),
    (dump start length s).length = min (start + length) 256 - start ∧
    (∀ k, (h : k < (dump start length s).length) →
      (dump start length s)[k] = render (Memory.read s.mem (start + k))) ∧
    (256 ≤ start → dump start length s = []) ∧ (length = 0 → dump start length s = [])

/-- 20_memory.md section 1 (decision D37): a cell is rendered as eight characters, bit 7 first, an order that the spec marks
as general knowledge (log entry 19). -/
def Obligations.RenderWritesEightBits : Prop :=
  ∀ v : Byte, (render v).length = 8 ∧
    ∀ k, k < 8 → (render v)[k]? = some (if v.getLsbD (7 - k) then '1' else '0')

/-- R60 (decision D12): an image of at most 256 bytes fills the first cells and leaves the others and everything else; a
longer one writes its first 256 bytes and then fails with OutOfBounds(256). -/
def Obligations.LoadImageFillsFromZero : Prop :=
  ∀ (bytes : List Byte) (s : State), Memory.wf s.mem →
    ∃ mem', (loadImage bytes s).1 = { s with mem := mem' } ∧ Memory.wf mem' ∧
      (loadImage bytes s).2 = (if bytes.length ≤ 256 then none else some (.outOfBounds 256)) ∧
      (∀ k, (h : k < bytes.length) → k < 256 → Memory.read mem' k = bytes[k]) ∧
      (∀ a, bytes.length ≤ a → Memory.read mem' a = Memory.read s.mem a)

/-- R270, R35 (decision D2): what `Reset()` leaves in every piece of the spec's state. -/
def Obligations.ResetState : Prop :=
  (∀ s : State, hostReset s = State.reset) ∧ (∀ k, (hk : k < 8) → State.reset.x[k] = 0) ∧
  (∀ a, a < 256 → memRead a State.reset = .ok 0) ∧ State.reset.pc = 0 ∧ State.reset.verbose = false ∧
  State.reset.run = .idle ∧ State.reset.diag = []

/-- 40_alu_logic.md section 1 (R136, most of it marked there as the spec's own inference, and R126): the identities of
the Logic Unit and the ALU, and the sum modulo 256. -/
def Obligations.LogicUnitIdentities : Prop :=
  ∀ a b : Byte, nand8 a b = not8 (and8 a b) ∧ nor8 a b = not8 (or8 a b) ∧ not8 (not8 a) = a ∧
    and8 a b = and8 b a ∧ or8 a b = or8 b a ∧ xor8 a b = xor8 b a ∧ nand8 a b = nand8 b a ∧ nor8 a b = nor8 b a ∧
    add8 a b = add8 b a ∧ xor8 a a = 0 ∧ and8 a a = a ∧ or8 a a = a ∧ nand8 a a = not8 a ∧ nor8 a a = not8 a ∧
    xor8 a 255 = not8 a ∧ (add8 a b).toNat = (a.toNat + b.toNat) % 256

/-- R120 to R125: the Logic Unit's functions bit by bit, NOT also as 255 minus its operand, NAND and NOR as the NOT of
AND and OR. -/
def Obligations.LogicUnitFunctions : Prop :=
  ∀ a b : Byte,
    (∀ k, k < 8 → (and8 a b).getLsbD k = (a.getLsbD k && b.getLsbD k) ∧
      (or8 a b).getLsbD k = (a.getLsbD k || b.getLsbD k) ∧
      (xor8 a b).getLsbD k = decide (a.getLsbD k ≠ b.getLsbD k) ∧ (not8 a).getLsbD k = !a.getLsbD k) ∧
    (not8 a).toNat = 255 - a.toNat ∧ nand8 a b = not8 (and8 a b) ∧ nor8 a b = not8 (or8 a b)
end

