-- ==== Sys2Proof/Laws/Decode.lean ====
section
/-! SUPPORT. The tables of the decoder read back what they write. -/

namespace Sys2Proof

@[simp] theorem opcodeOf_opcodeByte (o : Opcode) : opcodeOf (opcodeByte o) = some o := by cases o <;> decide

/-- A byte is the opcode byte of the opcode it stands for. -/
theorem opcodeByte_of_opcodeOf {b : Byte} {o : Opcode} (h : opcodeOf b = some o) : opcodeByte o = b := by
  simpa using List.find?_some h

@[simp] theorem mnemonicOf_mnemonicName (m : Mnemonic) : mnemonicOf (mnemonicName m) = some m := by
  cases m <;> decide

@[simp] theorem cmpOf_cmpName (o : CmpOp) : cmpOf (cmpName o) = some o := by cases o <;> decide

/-- Splitting at a keyword uses up the tokens before it, the keyword and the tokens after it (R101). -/
theorem splitAtKeyword_eq {k : Token} {ts before after : List Token}
    (h : splitAtKeyword k ts = some (before, after)) : ts = before ++ k :: after := by
  induction ts generalizing before after with
  | nil => cases h
  | cons t ts ih =>
    simp only [splitAtKeyword] at h
    split at h
    next hk =>
      cases h
      simp [hk]
    next =>
      split at h
      next b a hs =>
        cases h
        simp [ih hs]
      next => cases h

/-- A keyword that does not occur splits nothing. -/
theorem splitAtKeyword_none {k : Token} {ts : List Token} (h : k ∉ ts) : splitAtKeyword k ts = none := by
  induction ts with
  | nil => rfl
  | cons t ts ih =>
    rw [List.mem_cons, not_or] at h
    obtain ⟨hk, hts⟩ := h
    simp only [splitAtKeyword, if_neg (Ne.symm hk), ih hts]

/-- The first occurrence is where the split is made. -/
theorem splitAtKeyword_append {k : Token} {before : List Token} (after : List Token) (h : k ∉ before) :
    splitAtKeyword k (before ++ k :: after) = some (before, after) := by
  induction before with
  | nil => simp [splitAtKeyword]
  | cons t ts ih =>
    rw [List.mem_cons, not_or] at h
    obtain ⟨hk, hts⟩ := h
    simp only [List.cons_append, splitAtKeyword, if_neg (Ne.symm hk), ih hts]

/-- The clauses of an IF hold no more tokens than what follows its THEN. -/
theorem splitClauses_length (rest : List Token) :
    (splitClauses rest).1.length + ((splitClauses rest).2.getD []).length ≤ rest.length := by
  unfold splitClauses
  split
  next th el h =>
    have := congrArg List.length (splitAtKeyword_eq h)
    simp only [List.length_append, List.length_cons] at this
    simp
    omega
  next => simp

/-! ### The one error each resolver raises (R93 to R97) -/

/-- `ResolveReg` fails with InvalidRegister of the token less its comma, and with nothing else. -/
theorem resolveReg_error {tok : Token} {e : MachError} (h : resolveReg tok = .error e) :
    e = .invalidRegister (.token (stripComma tok)) := by
  unfold resolveReg at h
  split at h
  next =>
    split at h
    next => split at h <;> cases h; rfl
    next => cases h; rfl
  next => cases h; rfl

/-- `ResolveAddr` fails with InvalidAddress of the token, and with nothing else. -/
theorem resolveAddr_error {tok : Token} {e : MachError} (h : resolveAddr tok = .error e) : e = .invalidAddress tok := by
  unfold resolveAddr at h
  split at h
  next => split at h <;> cases h; rfl
  next => cases h; rfl

/-- `ResolveImm` fails with InvalidImmediate of the token, and with nothing else. -/
theorem resolveImm_error {tok : Token} {e : MachError} (h : resolveImm tok = .error e) : e = .invalidImmediate tok := by
  unfold resolveImm at h
  split at h
  next => split at h <;> cases h; rfl
  next => cases h; rfl

/-- VER's operand fails with InvalidFlag of the token, and with nothing else (R108). -/
theorem resolveFlag_error {tok : Token} {e : MachError} (h : resolveFlag tok = .error e) : e = .invalidFlag tok := by
  unfold resolveFlag at h
  split at h
  next => cases h
  next => split at h <;> cases h; rfl

/-- The errors a resolver of one token can raise: the token is no register, no address or no immediate. -/
abbrev tokenError (tok : Token) (e : MachError) : Prop :=
  e = .invalidRegister (.token (stripComma tok)) ∨ e = .invalidAddress tok ∨ e = .invalidImmediate tok

/-- `Resolve` fails with the error of the token's shape. -/
theorem resolve_error {tok : Token} {e : MachError} (h : resolve tok = .error e) : tokenError tok e := by
  unfold resolve at h
  split at h
  next => cases hr : resolveReg tok <;> simp only [hr] at h <;> cases h; exact .inl (resolveReg_error hr)
  next => cases hr : resolveAddr tok <;> simp only [hr] at h <;> cases h; exact .inr (.inl (resolveAddr_error hr))
  next => cases hr : resolveImm tok <;> simp only [hr] at h <;> cases h; exact .inr (.inr (resolveImm_error hr))

/-- OUT's operand fails with the error of the token's shape. -/
theorem resolveOut_error {tok : Token} {e : MachError} (h : resolveOut tok = .error e) : tokenError tok e := by
  unfold resolveOut at h
  split at h
  next => cases hr : resolveReg tok <;> simp only [hr] at h <;> cases h; exact .inl (resolveReg_error hr)
  next => cases h
  next => cases hr : resolveImm tok <;> simp only [hr] at h <;> cases h; exact .inr (.inr (resolveImm_error hr))

/-- A destination fails with InvalidDestination exactly where its token is immediate-shaped (R152, R164). -/
theorem resolvePlace_error {tok : Token} {e : MachError} (h : resolvePlace tok = .error e) :
    (shapeOf tok = .imm ∧ e = .invalidDestination tok) ∨ (shapeOf tok ≠ .imm ∧ tokenError tok e) := by
  unfold resolvePlace at h
  split at h
  next hs =>
    cases hr : resolveReg tok <;> simp only [hr] at h <;> cases h
    exact .inr ⟨by simp [hs], .inl (resolveReg_error hr)⟩
  next hs =>
    cases hr : resolveAddr tok <;> simp only [hr] at h <;> cases h
    exact .inr ⟨by simp [hs], .inr (.inl (resolveAddr_error hr))⟩
  next hs =>
    cases h
    exact .inl ⟨hs, rfl⟩

/-- Three registers fail with InvalidRegister of one of the tokens (R134). -/
theorem threeRegs_error {f : Byte → Byte → Byte → Instr} {t1 t2 t3 : Token} {e : MachError}
    (h : threeRegs f t1 t2 t3 = .error e) : ∃ t, e = .invalidRegister (.token t) := by
  unfold threeRegs at h
  cases h1 : resolveReg t1 <;> simp only [h1] at h
  next => cases h; exact ⟨_, resolveReg_error h1⟩
  cases h2 : resolveReg t2 <;> simp only [h2] at h
  next => cases h; exact ⟨_, resolveReg_error h2⟩
  cases h3 : resolveReg t3 <;> simp only [h3] at h
  next => cases h; exact ⟨_, resolveReg_error h3⟩
  cases h

end Sys2Proof
end

