-- ==== Sys2Proof/Laws/Memory.lean ====
section
/-! SUPPORT. The laws of the memory list: reads after writes, and the canonical form. -/

namespace Sys2Proof.Machine

@[simp] theorem Memory.read_nil (a : Nat) : Memory.read [] a = Config.resetMem := rfl

/-- A cell below every listed one holds the reset value. -/
theorem Memory.read_below (m : Memory) (a : Nat) (h : ∀ c ∈ m, a < c.1) : Memory.read m a = Config.resetMem := by
  induction m with
  | nil => rfl
  | cons c rest ih =>
    obtain ⟨b, v⟩ := c
    have hb : a < b := h (b, v) (by simp)
    have hrest := ih fun c hc => h c (by simp [hc])
    simp only [Memory.read, if_neg (Nat.ne_of_gt hb), hrest]

/-- Reading past a cell put in front by `consCell`. -/
theorem Memory.read_consCell_other (a b : Nat) (v : Byte) (rest : Memory) (h : b ≠ a) :
    Memory.read (Memory.consCell a v rest) b = Memory.read rest b := by
  unfold Memory.consCell
  split
  · rfl
  · simp [Memory.read, h.symm]

/-- Reading the cell put in front by `consCell`, in front of cells that lie above it. -/
theorem Memory.read_consCell_same (a : Nat) (v : Byte) (rest : Memory) (h : ∀ c ∈ rest, a < c.1) :
    Memory.read (Memory.consCell a v rest) a = v := by
  unfold Memory.consCell
  split
  next hv => rw [Memory.read_below rest a h, hv]
  next => simp [Memory.read]

/-- A read of the cell written gives the value written (R44). -/
theorem Memory.read_write_same (m : Memory) (a : Nat) (v : Byte) (h : m.Pairwise fun p q => p.1 < q.1) :
    Memory.read (Memory.write m a v) a = v := by
  induction m with
  | nil => exact Memory.read_consCell_same a v [] (by simp)
  | cons c rest ih =>
    obtain ⟨b, w⟩ := c
    obtain ⟨hb, hrest⟩ := List.pairwise_cons.mp h
    simp only [Memory.write]
    split
    next hlt =>
      apply Memory.read_consCell_same
      rintro c (_ | ⟨_, hc⟩)
      · exact hlt
      · exact Nat.lt_trans hlt (hb _ hc)
    next =>
      split
      next heq => exact Memory.read_consCell_same a v rest fun c hc => heq ▸ hb c hc
      next hne => simp only [Memory.read, if_neg (Ne.symm hne), ih hrest]

/-- A write changes no other cell (R43, R44). -/
theorem Memory.read_write_other (m : Memory) (a b : Nat) (v : Byte) (h : b ≠ a) :
    Memory.read (Memory.write m a v) b = Memory.read m b := by
  induction m with
  | nil => exact Memory.read_consCell_other a b v [] h
  | cons c rest ih =>
    obtain ⟨d, w⟩ := c
    simp only [Memory.write]
    split
    · exact Memory.read_consCell_other a b v _ h
    · split
      next heq =>
        rw [Memory.read_consCell_other a b v _ h]
        simp [Memory.read, ← heq, h.symm]
      next => simp only [Memory.read, ih]

/-- Every cell of a written memory is the cell written or was there before. -/
theorem Memory.mem_write {m : Memory} {a : Nat} {v : Byte} {c : Host.Cell} (h : c ∈ Memory.write m a v) :
    (c = (a, v) ∧ v ≠ Config.resetMem) ∨ c ∈ m := by
  have cons {rest : Memory} (h : c ∈ Memory.consCell a v rest) : (c = (a, v) ∧ v ≠ Config.resetMem) ∨ c ∈ rest := by
    unfold Memory.consCell at h
    split at h
    next => exact .inr h
    next hv =>
      rcases List.mem_cons.mp h with h | h
      · exact .inl ⟨h, hv⟩
      · exact .inr h
  induction m with
  | nil => exact cons h
  | cons d rest ih =>
    obtain ⟨b, w⟩ := d
    simp only [Memory.write] at h
    split at h
    · exact cons h
    · split at h
      · rcases cons h with h | h
        · exact .inl h
        · exact .inr (List.mem_cons_of_mem _ h)
      · rcases List.mem_cons.mp h with h | h
        · exact .inr (h ▸ List.mem_cons_self ..)
        · rcases ih h with h | h
          · exact .inl h
          · exact .inr (List.mem_cons_of_mem _ h)

/-- `consCell` in front of cells that lie above it keeps the order. -/
theorem Memory.pairwise_consCell {a : Nat} {v : Byte} {rest : Memory} (h : rest.Pairwise fun p q => p.1 < q.1)
    (ha : ∀ c ∈ rest, a < c.1) : (Memory.consCell a v rest).Pairwise fun p q => p.1 < q.1 := by
  unfold Memory.consCell
  split
  · exact h
  · exact List.pairwise_cons.mpr ⟨ha, h⟩

/-- A write keeps the addresses rising. -/
theorem Memory.pairwise_write {m : Memory} (a : Nat) (v : Byte) (h : m.Pairwise fun p q => p.1 < q.1) :
    (Memory.write m a v).Pairwise fun p q => p.1 < q.1 := by
  induction m with
  | nil => exact Memory.pairwise_consCell h (by simp)
  | cons c rest ih =>
    obtain ⟨b, w⟩ := c
    obtain ⟨hb, hrest⟩ := List.pairwise_cons.mp h
    simp only [Memory.write]
    split
    next hlt =>
      refine Memory.pairwise_consCell h ?_
      rintro c (_ | ⟨_, hc⟩)
      · exact hlt
      · exact Nat.lt_trans hlt (hb _ hc)
    next hlt =>
      split
      next heq => exact Memory.pairwise_consCell hrest fun c hc => heq ▸ hb c hc
      next hne =>
        refine List.pairwise_cons.mpr ⟨fun c hc => ?_, ih hrest⟩
        rcases Memory.mem_write hc with ⟨rfl, -⟩ | hc
        · exact Nat.lt_of_le_of_ne (Nat.le_of_not_lt hlt) fun e => hne e.symm
        · exact hb c hc

/-- A write to a cell that exists keeps the canonical form. -/
theorem Memory.wf_write {m : Memory} {a : Nat} (v : Byte) (h : Memory.wf m) (ha : a < Config.numCells) :
    Memory.wf (Memory.write m a v) := by
  refine ⟨Memory.pairwise_write a v h.1, fun c hc => ?_⟩
  rcases Memory.mem_write hc with ⟨rfl, hv⟩ | hc
  · exact ⟨ha, hv⟩
  · exact h.2 c hc

/-- Writing a run of bytes inside Memory keeps the canonical form. -/
theorem Memory.wf_writeAll {m : Memory} {a : Nat} (bs : List Byte) (h : Memory.wf m)
    (ha : a + bs.length ≤ Config.numCells) : Memory.wf (Memory.writeAll m a bs) := by
  induction bs generalizing m a with
  | nil => exact h
  | cons b bs ih =>
    simp only [List.length_cons] at ha
    exact ih (Memory.wf_write b h (by omega)) (by omega)

/-- The reset memory is in the canonical form. -/
theorem State.reset_mem_wf : Memory.wf State.reset.mem := by simp [Memory.wf, State.reset]

end Sys2Proof.Machine
end

