-- ==== Sys2Proof/Laws/State.lean ====
section
/-! SUPPORT. One lemma per field of the state per update. -/

namespace Sys2Proof.Machine

section SetReg
variable (s : State) (i : Fin 8) (v : Byte)

@[simp] theorem setReg_mem : (setReg s i v).mem = s.mem := rfl
@[simp] theorem setReg_pc : (setReg s i v).pc = s.pc := rfl
@[simp] theorem setReg_verbose : (setReg s i v).verbose = s.verbose := rfl
@[simp] theorem setReg_run : (setReg s i v).run = s.run := rfl
@[simp] theorem setReg_diag : (setReg s i v).diag = s.diag := rfl
@[simp] theorem setReg_outcome : (setReg s i v).outcome = s.outcome := rfl
@[simp] theorem setReg_x : (setReg s i v).x = s.x.set i v := rfl

/-- The register written holds the value written (R12). -/
theorem getReg_setReg_same : getReg (setReg s i v) i = v := by simp [getReg, setReg]

/-- No other register changes (R12). -/
theorem getReg_setReg_other {j : Fin 8} (h : j ≠ i) : getReg (setReg s i v) j = getReg s j := by
  have hij : (i : Nat) ≠ (j : Nat) := fun e => h (Fin.ext e.symm)
  simp [getReg, setReg, hij]

end SetReg

section EmitOut
variable (s : State) (v : Byte)

@[simp] theorem emitOut_x : (emitOut s v).x = s.x := rfl
@[simp] theorem emitOut_mem : (emitOut s v).mem = s.mem := rfl
@[simp] theorem emitOut_pc : (emitOut s v).pc = s.pc := rfl
@[simp] theorem emitOut_verbose : (emitOut s v).verbose = s.verbose := rfl
@[simp] theorem emitOut_run : (emitOut s v).run = s.run := rfl
@[simp] theorem emitOut_diag : (emitOut s v).diag = s.diag ++ [.out v] := rfl
@[simp] theorem emitOut_outcome : (emitOut s v).outcome = s.outcome := rfl

end EmitOut

section Signal
variable (s : State) (o : StepOutcome)

@[simp] theorem signal_x : (signal s o).x = s.x := rfl
@[simp] theorem signal_mem : (signal s o).mem = s.mem := rfl
@[simp] theorem signal_pc : (signal s o).pc = s.pc := rfl
@[simp] theorem signal_verbose : (signal s o).verbose = s.verbose := rfl
@[simp] theorem signal_diag : (signal s o).diag = s.diag := rfl
@[simp] theorem signal_outcome : (signal s o).outcome = o := rfl
@[simp] theorem signal_run : (signal s o).run = settleRun s.run o := rfl

end Signal

/-- An instruction that continues leaves the run status alone (R28). -/
@[simp] theorem settleRun_cont (r : RunStatus) : settleRun r .cont = r := by cases r <;> rfl

@[simp] theorem settleRun_running_halt (l : RunLoop) : settleRun (.running l) .halt = .halted := rfl

@[simp] theorem settleRun_running_error (l : RunLoop) (e : MachError) :
    settleRun (.running l) (.error e) = .stopped e := rfl

end Sys2Proof.Machine
end

