-- ==== Sys2Proof/Laws/Ops.lean ====
section
/-! SUPPORT. What each shared operation can answer, said once. -/

namespace Sys2Proof.Machine

/-! ### Reading and writing cells -/

theorem memRead_ok {a : Nat} (s : State) (h : a < Config.numCells) : memRead a s = .ok (Memory.read s.mem a) :=
  if_pos h

theorem memRead_error {a : Nat} (s : State) (h : ¬ a < Config.numCells) :
    memRead a s = .error (.outOfBounds a) := if_neg h

theorem memWrite_ok {a : Nat} (v : Byte) (s : State) (h : a < Config.numCells) :
    memWrite a v s = .ok { s with mem := Memory.write s.mem a v } := if_pos h

theorem memWrite_error {a : Nat} (v : Byte) (s : State) (h : ¬ a < Config.numCells) :
    memWrite a v s = .error (.outOfBounds a) := if_neg h

/-- An address that came as a byte is inside Memory (R79). -/
theorem byte_lt_numCells (b : Byte) : b.toNat < Config.numCells := b.isLt

@[simp] theorem memRead_byte (b : Byte) (s : State) : memRead b.toNat s = .ok (Memory.read s.mem b.toNat) :=
  memRead_ok s (byte_lt_numCells b)

@[simp] theorem memWrite_byte (b v : Byte) (s : State) :
    memWrite b.toNat v s = .ok { s with mem := Memory.write s.mem b.toNat v } :=
  memWrite_ok v s (byte_lt_numCells b)

/-- A write answers the state with nothing but that cell changed. -/
theorem memWrite_inv {a : Nat} {v : Byte} {s t : State} (h : memWrite a v s = .ok t) :
    a < Config.numCells ∧ t = { s with mem := Memory.write s.mem a v } := by
  unfold memWrite at h
  split at h
  next ha => exact ⟨ha, by simpa using h.symm⟩
  next => cases h

/-! ### Register bytes -/

theorem regIndex_ok {b : Byte} (h : b.toNat < 8) : regIndex b = .ok ⟨b.toNat, h⟩ := dif_pos h

theorem regIndex_error {b : Byte} (h : ¬ b.toNat < 8) : regIndex b = .error (.invalidRegister (.byte b)) := dif_neg h

/-- A register byte either names a register or raises InvalidRegister. -/
theorem regIndex_cases (b : Byte) :
    (∃ h : b.toNat < 8, regIndex b = .ok ⟨b.toNat, h⟩) ∨
      (8 ≤ b.toNat ∧ regIndex b = .error (.invalidRegister (.byte b))) := by
  by_cases h : b.toNat < 8
  · exact .inl ⟨h, regIndex_ok h⟩
  · exact .inr ⟨Nat.le_of_not_lt h, regIndex_error h⟩

/-! ### The end of an instruction -/

/-- An instruction given as one computation either commits its effect and continues, or takes its error in the state it
started in. -/
theorem commit_cases {s t : State} {r : Except MachError State} (h : commit s r = .next t) :
    (∃ u, r = .ok u ∧ t = signal u .cont) ∨ (∃ e, r = .error e ∧ t = signal s (.error e)) := by
  cases r with
  | ok u =>
    cases h
    exact .inl ⟨u, rfl, rfl⟩
  | error e =>
    cases h
    exact .inr ⟨e, rfl, rfl⟩

/-- Such an instruction always answers a next state. -/
theorem commit_next (s : State) (r : Except MachError State) : ∃ t, commit s r = .next t := by
  cases r <;> exact ⟨_, rfl⟩

/-! ### Operands -/

/-- Reading a source either gives a value or finds no such register. -/
theorem sourceValue_cases (o : Source) (s : State) :
    (∃ v, sourceValue o s = .ok v) ∨ (∃ b, sourceValue o s = .error (.invalidRegister (.byte b))) := by
  cases o with
  | reg r =>
    rcases regIndex_cases r with ⟨h, hr⟩ | ⟨-, hr⟩
    · exact .inl ⟨_, by simp only [sourceValue, hr]; rfl⟩
    · exact .inr ⟨r, by simp only [sourceValue, hr]; rfl⟩
  | mem a => exact .inl ⟨_, memRead_byte a s⟩
  | imm v => exact .inl ⟨v, rfl⟩

/-- Writing a destination changes one register or one cell, or finds no such register. -/
theorem writePlace_cases (p : Place) (v : Byte) (s : State) :
    (∃ i, writePlace p v s = .ok (setReg s i v)) ∨
      (∃ a : Byte, writePlace p v s = .ok { s with mem := Memory.write s.mem a.toNat v }) ∨
      (∃ b, writePlace p v s = .error (.invalidRegister (.byte b))) := by
  cases p with
  | reg r =>
    rcases regIndex_cases r with ⟨h, hr⟩ | ⟨-, hr⟩
    · exact .inl ⟨_, by simp only [writePlace, hr]; rfl⟩
    · exact .inr (.inr ⟨r, by simp only [writePlace, hr]; rfl⟩)
  | mem a => exact .inr (.inl ⟨a, memWrite_byte a v s⟩)

end Sys2Proof.Machine
end

