-- ==== Sys2Proof/Laws/Exec.lean ====
section
/-! SUPPORT. What an instruction can do, said once over all of them, and the nesting of IF. -/

namespace Sys2Proof.Machine

/-- What an instruction that continues can have done to the state it started in: nothing, one register, one cell, a
cell and then a register or a register and then a cell (QMOV), one event, the verbose flag, or the program counter. -/
inductive Effect (s : State) : State → Prop where
  | none : Effect s s
  | reg (i : Fin 8) (v : Byte) : Effect s (setReg s i v)
  | cell (a v : Byte) : Effect s { s with mem := Memory.write s.mem a.toNat v }
  | cellReg (a v : Byte) (i : Fin 8) (w : Byte) :
      Effect s (setReg { s with mem := Memory.write s.mem a.toNat v } i w)
  | regCell (i : Fin 8) (w a v : Byte) : Effect s { setReg s i w with mem := Memory.write s.mem a.toNat v }
  | event (v : Byte) : Effect s (emitOut s v)
  | flag (b : Bool) : Effect s { s with verbose := b }
  | jump (t : Byte) : Effect s { s with pc := t.toNat }

/-- What an instruction can answer: an effect and Continue, Halt with no effect, or an error with no effect. -/
inductive Answered (s : State) : State → Prop where
  | cont {u : State} : Effect s u → Answered s (signal u .cont)
  | halt : Answered s (signal s .halt)
  | error (e : MachError) : Answered s (signal s (.error e))

/-- A computation whose every success is an effect answers within `Answered`. -/
theorem Answered.of_commit {s t : State} {r : Except MachError State} (h : commit s r = .next t)
    (hr : ∀ u, r = .ok u → Effect s u) : Answered s t := by
  obtain ⟨u, hu, rfl⟩ | ⟨e, -, rfl⟩ := commit_cases h
  · exact .cont (hr u hu)
  · exact .error e

/-- A step of a checked computation that succeeds has its first part succeed. -/
theorem bind_ok {α β : Type} {x : Except MachError α} {f : α → Except MachError β} {b : β} (h : x >>= f = .ok b) :
    ∃ a, x = .ok a ∧ f a = .ok b := by
  cases x with
  | ok a => exact ⟨a, rfl, h⟩
  | error e => cases h

/-- A final value of a checked computation. -/
theorem pure_ok {α : Type} {a b : α} (h : (pure a : Except MachError α) = .ok b) : b = a := by cases h; rfl

theorem memWrite_effect {a v : Byte} {s u : State} (h : memWrite a.toNat v s = .ok u) : Effect s u := by
  obtain ⟨-, rfl⟩ := memWrite_inv h
  exact .cell a v

theorem writePlace_effect {p : Place} {v : Byte} {s u : State} (h : writePlace p v s = .ok u) : Effect s u := by
  rcases writePlace_cases p v s with ⟨i, hi⟩ | ⟨a, ha⟩ | ⟨b, hb⟩
  · obtain rfl := Except.ok.inj (hi.symm.trans h)
    exact .reg i v
  · obtain rfl := Except.ok.inj (ha.symm.trans h)
    exact .cell a v
  · cases hb.symm.trans h

theorem threeRegOp_answered {f : Byte → Byte → Byte} {a b c : Byte} {s t : State}
    (h : threeRegOp f a b c s = .next t) : Answered s t := by
  refine .of_commit h fun u hu => ?_
  obtain ⟨i, -, hu⟩ := bind_ok hu
  obtain ⟨j, -, hu⟩ := bind_ok hu
  obtain ⟨k, -, hu⟩ := bind_ok hu
  obtain rfl := pure_ok hu
  exact .reg k _

theorem execNot_answered {a b : Byte} {s t : State} (h : execNot a b s = .next t) : Answered s t := by
  refine .of_commit h fun u hu => ?_
  obtain ⟨i, -, hu⟩ := bind_ok hu
  obtain ⟨j, -, hu⟩ := bind_ok hu
  obtain rfl := pure_ok hu
  exact .reg j _

theorem execLoad_answered {d m : Byte} {s t : State} (h : execLoad d m s = .next t) : Answered s t := by
  refine .of_commit h fun u hu => ?_
  obtain ⟨i, -, hu⟩ := bind_ok hu
  obtain ⟨v, -, hu⟩ := bind_ok hu
  obtain rfl := pure_ok hu
  exact .reg i v

theorem execStore_answered {r m : Byte} {s t : State} (h : execStore r m s = .next t) : Answered s t := by
  refine .of_commit h fun u hu => ?_
  obtain ⟨i, -, hu⟩ := bind_ok hu
  exact memWrite_effect hu

theorem execMov_answered {d : Place} {o : Source} {s t : State} (h : execMov d o s = .next t) : Answered s t := by
  refine .of_commit h fun u hu => ?_
  obtain ⟨-, -, hu⟩ := bind_ok hu
  obtain ⟨v, -, hu⟩ := bind_ok hu
  exact writePlace_effect hu

theorem moveRegToMem_effect {r a : Byte} {s u : State} (h : moveRegToMem r a s = .ok u) : Effect s u := by
  obtain ⟨i, -, h⟩ := bind_ok h
  obtain ⟨t, ht, h⟩ := bind_ok h
  obtain ⟨-, rfl⟩ := memWrite_inv ht
  obtain rfl := pure_ok h
  exact .cellReg a _ i 0

theorem moveMemToReg_effect {a r : Byte} {s u : State} (h : moveMemToReg a r s = .ok u) : Effect s u := by
  obtain ⟨i, -, h⟩ := bind_ok h
  obtain ⟨v, -, h⟩ := bind_ok h
  obtain ⟨-, rfl⟩ := memWrite_inv h
  exact .regCell i v a 0

theorem execQmov_answered {f : QmovForm} {s t : State} (h : execQmov f s = .next t) : Answered s t := by
  cases f with
  | regAddr r a => exact .of_commit h fun u hu => moveRegToMem_effect hu
  | addrReg a r => exact .of_commit h fun u hu => moveMemToReg_effect hu

theorem execOut_answered {o : OutTarget} {s t : State} (h : execOut o s = .next t) : Answered s t := by
  cases o with
  | reg r =>
    refine .of_commit h fun u hu => ?_
    obtain ⟨i, -, hu⟩ := bind_ok hu
    obtain rfl := pure_ok hu
    exact .event _
  | imm v =>
    cases h
    exact .cont (.event v)
  | addrShaped tok => cases h

/-- Every instruction but IF answers within `Answered`. -/
theorem execLeaf_answered {i : Instr} {s t : State} (h : execLeaf i s = .next t) : Answered s t := by
  cases i with
  | load d m => exact execLoad_answered h
  | store r m => exact execStore_answered h
  | add a b c => exact threeRegOp_answered h
  | and a b c => exact threeRegOp_answered h
  | or a b c => exact threeRegOp_answered h
  | xor a b c => exact threeRegOp_answered h
  | not a b => exact execNot_answered h
  | jump t => cases h; exact .cont (.jump t)
  | initReserved => cases h; exact .error _
  | outReserved => cases h; exact .error _
  | clearReserved => cases h; exact .error _
  | verReserved => cases h; exact .error _
  | halt => cases h; exact .halt
  | nand a b c => exact threeRegOp_answered h
  | nor a b c => exact threeRegOp_answered h
  | mov d o => exact execMov_answered h
  | qmov f => exact execQmov_answered h
  | init a v => exact .of_commit h fun u hu => memWrite_effect hu
  | out o => exact execOut_answered h
  | clear p => exact .of_commit h fun u hu => writePlace_effect hu
  | ver b => cases h; exact .cont (.flag b)
  | ifThen line a op o th el => cases h

/-- A clause answers within `Answered` if the instructions it may hold do. -/
theorem runClause_answered {f : Instr → State → Answer} {line : Line} {toks : List Token} {s t : State}
    (hf : ∀ i, f i s = .next t → Answered s t) (h : runClause f line toks s = .next t) : Answered s t := by
  unfold runClause at h
  split at h
  · cases h; exact .error _
  · cases h; exact .cont .none
  · exact hf _ h

/-- An IF answers within `Answered` if its clauses do. -/
theorem selectClause_answered {f : Instr → State → Answer} {line : Line} {a : Byte} {op : CmpOp} {o : Source}
    {th : List Token} {el : Option (List Token)} {s t : State} (hf : ∀ i, f i s = .next t → Answered s t)
    (h : selectClause f line a op o th el s = .next t) : Answered s t := by
  unfold selectClause at h
  split at h
  · cases h; exact .error _
  · exact runClause_answered hf h
  · split at h
    · exact runClause_answered hf h
    · cases h; exact .cont .none

/-- Every instruction, at any nesting of IF, answers within `Answered`. -/
theorem execNested_answered {n : Nat} {i : Instr} {s t : State} (h : execNested n i s = .next t) : Answered s t := by
  induction n generalizing i with
  | zero => exact execLeaf_answered h
  | succ n ih =>
    cases i with
    | ifThen line a op o th el => exact selectClause_answered (fun i hi => ih hi) h
    | _ => exact execLeaf_answered h

/-- Every instruction that is no IF has the meaning it has inside a clause. -/
theorem exec_eq_leaf {i : Instr} (s : State) (h : i.carriedLine = none) : exec i s = execLeaf i s := by
  cases i with
  | ifThen line a op o th el => cases h
  | _ => rfl

/-- WHAT AN INSTRUCTION CAN DO: if `exec` answers a next state, it is one of `Answered`. -/
theorem exec_answered {i : Instr} {s t : State} (h : exec i s = .next t) : Answered s t := by
  cases i with
  | ifThen line a op o th el => exact execNested_answered h
  | _ => exact execLeaf_answered ((exec_eq_leaf s rfl).symm.trans h)

end Sys2Proof.Machine
end

