-- ==== Sys2Proof/Laws/Nesting.lean ====
section
/-! SUPPORT. The nesting of IF (43_control_flow.md R205): every level uses up tokens, so the number of levels `execIf`
allows is always enough, and any larger number gives the same answer. -/

namespace Sys2Proof.Machine

/-- A bound on the levels of an instruction: for an IF, more than the tokens of its clauses. -/
def levels : Instr → Nat
  | .ifThen _ _ _ _ th el => th.length + (el.getD []).length + 1
  | _ => 0

theorem levels_of_no_line {i : Instr} (h : i.carriedLine = none) : levels i = 0 := by
  cases i with
  | ifThen line a op o th el => cases h
  | _ => rfl

/-- Three register tokens never make an IF. -/
theorem threeRegs_no_line {f : Byte → Byte → Byte → Instr} (hf : ∀ a b c, (f a b c).carriedLine = none)
    {t1 t2 t3 : Token} {i : Instr} (h : threeRegs f t1 t2 t3 = .ok i) : i.carriedLine = none := by
  obtain ⟨a, -, h⟩ := bind_ok h
  obtain ⟨b, -, h⟩ := bind_ok h
  obtain ⟨c, -, h⟩ := bind_ok h
  obtain rfl := pure_ok h
  exact hf a b c

/-- The operands of a mnemonic other than IF never make an IF. -/
theorem decodeOperands_no_line {line : Line} {m : Token} {k : Mnemonic} {args : List Token} {i : Instr}
    (h : decodeOperands line m k args = .ok i) : i.carriedLine = none := by
  unfold decodeOperands at h
  split at h
  all_goals first
    | exact threeRegs_no_line (fun _ _ _ => rfl) h
    | (obtain ⟨_, -, h⟩ := bind_ok h; obtain ⟨_, -, h⟩ := bind_ok h; obtain rfl := pure_ok h; rfl)
    | (obtain ⟨_, -, h⟩ := bind_ok h; obtain rfl := pure_ok h; rfl)
    | (cases h; done)
    | (cases h; rfl)
    | (split at h
       · obtain ⟨_, -, h⟩ := bind_ok h; obtain ⟨_, -, h⟩ := bind_ok h; obtain rfl := pure_ok h; rfl
       · cases h)

/-- An IF read from tokens has fewer levels than there are tokens after its mnemonic. -/
theorem decodeIf_levels {line : Line} {args : List Token} {i : Instr} (h : decodeIf line args = .ok i) :
    levels i < args.length := by
  unfold decodeIf at h
  split at h
  next ra op o rest hs =>
    have hlen := congrArg List.length (splitAtKeyword_eq hs)
    simp only [List.length_append, List.length_cons, List.length_nil] at hlen
    have hc := splitClauses_length rest
    split at h
    · split at h
      · obtain ⟨a, -, h⟩ := bind_ok h
        obtain ⟨v, -, h⟩ := bind_ok h
        obtain rfl := pure_ok h
        simp only [levels]
        omega
      · cases h
    · cases h
  next => cases h

/-- The instruction a clause holds has fewer levels than the clause has tokens. -/
theorem decodeTokens_levels {line : Line} {toks : List Token} {i : Instr}
    (h : decodeTokens line toks = .ok (some i)) : levels i < toks.length := by
  cases toks with
  | nil => cases h
  | cons m args =>
    simp only [decodeTokens] at h
    split at h
    next j hj =>
      cases h
      unfold decodeInstr at hj
      split at hj
      next => cases hj
      next k hk =>
        split at hj
        next => exact Nat.lt_succ_of_lt (decodeIf_levels hj)
        next n hn =>
          split at hj
          · rw [levels_of_no_line (decodeOperands_no_line hj)]
            simp
          · cases hj
    next => cases h

/-- A clause runs alike under two ways of running its instructions that agree on instructions of so few levels. -/
theorem runClause_congr {f g : Instr → State → Answer} {n : Nat} (hfg : ∀ i s, levels i < n → f i s = g i s)
    (line : Line) {toks : List Token} (s : State) (hn : toks.length ≤ n) :
    runClause f line toks s = runClause g line toks s := by
  unfold runClause
  split
  · rfl
  · rfl
  next i hi => exact hfg i s (Nat.lt_of_lt_of_le (decodeTokens_levels hi) hn)

/-- An IF runs alike under two ways of running its clauses that agree on instructions of so few levels. -/
theorem selectClause_congr {f g : Instr → State → Answer} {n : Nat} (hfg : ∀ i s, levels i < n → f i s = g i s)
    (line : Line) (a : Byte) (op : CmpOp) (o : Source) {th : List Token} {el : Option (List Token)} (s : State)
    (hn : th.length + (el.getD []).length ≤ n) :
    selectClause f line a op o th el s = selectClause g line a op o th el s := by
  unfold selectClause
  split
  · rfl
  · exact runClause_congr hfg line s (by omega)
  · cases el with
    | none => rfl
    | some ts =>
      simp only [Option.getD_some] at hn
      exact runClause_congr hfg line s (by omega)

/-- Any two numbers of levels that are enough give the same answer. -/
theorem execNested_stable {n m : Nat} {i : Instr} (s : State) (hn : levels i ≤ n) (hm : levels i ≤ m) :
    execNested n i s = execNested m i s := by
  induction n generalizing m i s with
  | zero =>
    cases i with
    | ifThen line a op o th el => exact absurd hn (Nat.not_succ_le_zero _)
    | _ => cases m <;> rfl
  | succ n ih =>
    cases i with
    | ifThen line a op o th el =>
      cases m with
      | zero => exact absurd hm (Nat.not_succ_le_zero _)
      | succ m =>
        simp only [levels, Nat.succ_le_succ_iff] at hn hm
        exact selectClause_congr (n := th.length + (el.getD []).length)
          (fun j t hj => ih t (by omega) (by omega)) line a op o s (Nat.le_refl _)
    | _ => cases m <;> rfl

/-- An IF's clauses are run with as many levels as they have tokens. -/
theorem execIf_eq (line : Line) (a : Byte) (op : CmpOp) (o : Source) (th : List Token) (el : Option (List Token))
    (s : State) : execIf line a op o th el s =
      selectClause (execNested (th.length + (el.getD []).length)) line a op o th el s := rfl

/-- With as many levels as an instruction needs, running it inside a clause is running it as a line of its own. -/
theorem execNested_eq_exec {n : Nat} {i : Instr} (s : State) (h : levels i ≤ n) : execNested n i s = exec i s := by
  cases i with
  | ifThen line a op o th el => exact execNested_stable s h (Nat.le_refl _)
  | _ => cases n <;> rfl

end Sys2Proof.Machine
end

