-- ==== Sys2Proof/Laws/PerInstr.lean ====
section
/-! SUPPORT. A fact of every instruction as data: a binary encoding fills exactly one slot (30_encoding.md R72). -/

namespace Sys2Proof.Laws

/-- Every binary encoding is one slot of four bytes, whatever the operand count (R72). -/
def Slot.Statement (i : Instr) : Prop := ∀ bs, encode i = some bs → bs.length = Config.slot

theorem Slot.load (d m : Byte) : Slot.Statement (.load d m) := by rintro _ ⟨⟩; rfl
theorem Slot.store (r m : Byte) : Slot.Statement (.store r m) := by rintro _ ⟨⟩; rfl
theorem Slot.add (a b c : Byte) : Slot.Statement (.add a b c) := by rintro _ ⟨⟩; rfl
theorem Slot.and (a b c : Byte) : Slot.Statement (.and a b c) := by rintro _ ⟨⟩; rfl
theorem Slot.or (a b c : Byte) : Slot.Statement (.or a b c) := by rintro _ ⟨⟩; rfl
theorem Slot.xor (a b c : Byte) : Slot.Statement (.xor a b c) := by rintro _ ⟨⟩; rfl
theorem Slot.not (a b : Byte) : Slot.Statement (.not a b) := by rintro _ ⟨⟩; rfl
theorem Slot.jump (t : Byte) : Slot.Statement (.jump t) := by rintro _ ⟨⟩; rfl
theorem Slot.initReserved : Slot.Statement .initReserved := by rintro _ ⟨⟩; rfl
theorem Slot.outReserved : Slot.Statement .outReserved := by rintro _ ⟨⟩; rfl
theorem Slot.clearReserved : Slot.Statement .clearReserved := by rintro _ ⟨⟩; rfl
theorem Slot.verReserved : Slot.Statement .verReserved := by rintro _ ⟨⟩; rfl
theorem Slot.halt : Slot.Statement .halt := by rintro _ ⟨⟩; rfl
theorem Slot.nand (a b c : Byte) : Slot.Statement (.nand a b c) := by rintro _ ⟨⟩
theorem Slot.nor (a b c : Byte) : Slot.Statement (.nor a b c) := by rintro _ ⟨⟩
theorem Slot.mov (d : Place) (o : Source) : Slot.Statement (.mov d o) := by rintro _ ⟨⟩
theorem Slot.qmov (f : QmovForm) : Slot.Statement (.qmov f) := by rintro _ ⟨⟩
theorem Slot.init (a v : Byte) : Slot.Statement (.init a v) := by rintro _ ⟨⟩
theorem Slot.out (t : OutTarget) : Slot.Statement (.out t) := by rintro _ ⟨⟩
theorem Slot.clear (t : Place) : Slot.Statement (.clear t) := by rintro _ ⟨⟩
theorem Slot.ver (flag : Bool) : Slot.Statement (.ver flag) := by rintro _ ⟨⟩
theorem Slot.ifThen (line : Line) (a : Byte) (op : CmpOp) (o : Source) (th : List Token) (el : Option (List Token)) :
    Slot.Statement (.ifThen line a op o th el) := by rintro _ ⟨⟩

end Sys2Proof.Laws
end

