-- ==== Sys2Proof/Laws/Step.lean ====
section
/-! SUPPORT. What a step can do, said once: which run loop it serves, and what the binary step adds to `exec`. -/

namespace Sys2Proof.Machine

theorem step_binary {s : State} (h : s.run = .running .binary) : step s = stepBinary s := by
  simp only [step, engineStep, h]

theorem step_text {s : State} {rest : List Line} (h : s.run = .running (.text rest)) :
    step s = textTurn rest s := by simp only [step, engineStep, h]

/-- The advance leaves every answer a next state of the same instruction, with at most `pc` moved. -/
theorem advancePc_next {i : Instr} {r : Answer} {t : State} (h : advancePc i r = .next t) :
    ∃ u, r = .next u ∧ (t = u ∨ (u.outcome = .cont ∧ isJump i = false ∧ t = { u with pc := u.pc + Config.slot })) := by
  cases r with
  | next u =>
    refine ⟨u, rfl, ?_⟩
    simp only [advancePc, Host.Outcome.next.injEq] at h
    split at h
    next hu => exact .inr ⟨hu.1, hu.2, h.symm⟩
    next => exact .inl h.symm
  | fault r => cases h
  | refused r => cases h

/-- WHAT A BINARY STEP CAN DO: take a fetch error, or run the fetched instruction and perhaps advance. -/
theorem stepBinary_cases {s t : State} (h : stepBinary s = .next t) :
    (∃ e, fetchInstr s = .error e ∧ t = signal s (.error e)) ∨
      ∃ i u, fetchInstr s = .ok i ∧ exec i s = .next u ∧
        (t = u ∨ (u.outcome = .cont ∧ isJump i = false ∧ t = { u with pc := u.pc + Config.slot })) := by
  unfold stepBinary at h
  split at h
  next e he =>
    cases h
    exact .inl ⟨e, he, rfl⟩
  next i hi =>
    obtain ⟨u, hu, ht⟩ := advancePc_next h
    exact .inr ⟨i, u, hi, hu, ht⟩

/-- A fetch that succeeds was made inside Memory (R208). -/
theorem fetchInstr_pc {s : State} {i : Instr} (h : fetchInstr s = .ok i) : s.pc < Config.numCells := by
  obtain ⟨op, hop, -⟩ := bind_ok h
  by_contra hpc
  rw [memRead_error s hpc] at hop
  cases hop

/-- WHAT A TEXT STEP CAN DO: answer as an instruction does, having taken the line from the pending ones. -/
theorem execText_answered {line : Line} {s t : State} (h : execText line s = .next t) : Answered s t :=
  runClause_answered (fun _ hi => exec_answered hi) h

end Sys2Proof.Machine
end

