-- ==== Sys2Proof/Tests/Slice0.lean ====
section
/-! SUPPORT. Tests of single steps against the spec's own vectors (95_test_vectors.md) and encodings, the smoke test of
WellFormed, and a witness for every statement that has hypotheses. -/

namespace Sys2Proof.Tests
open Sys2Proof Sys2Proof.Machine

/-! ### Helpers -/

/-- The next state of an answer. -/
def nextOf : Answer → Option State
  | .next t => some t
  | .fault _ => none
  | .refused _ => none

/-- Why an answer is a refusal. -/
def refusalOf : Answer → Option Refusal
  | .next _ => none
  | .fault _ => none
  | .refused r => some r

/-- The reset state with some registers and cells. -/
def small (x : Vector Byte 8) (mem : Memory) : State := { State.reset with x := x, mem := mem }

/-- A binary run at `pc` over a memory. -/
def runAt (pc : Nat) (mem : Memory) : State := { State.reset with mem := mem, pc := pc, run := .running .binary }

/-- A line. -/
def line (t : String) : Line := t.toList

/-- Tokens. -/
def toks (ts : List String) : List Token := ts.map String.toList

/-- The start of V4: R1 = 0xCC, R2 = 0xAA. -/
def v4 : State := small #v[0, 0xCC, 0xAA, 0, 0, 0, 0, 0] []

/-! ### WellFormed: an ill-formed term for each check -/

theorem test_wf_register : (Instr.load 8 0).wf = false ∧ (Instr.load 7 0).wf = true := by decide
theorem test_wf_three_registers :
    (Instr.add 8 0 0).wf = false ∧ (Instr.add 0 8 0).wf = false ∧ (Instr.nor 0 0 8).wf = false := by decide
theorem test_wf_operands :
    (Instr.mov (.reg 8) (.imm 0)).wf = false ∧ (Instr.mov (.mem 0) (.reg 9)).wf = false ∧
      (Instr.qmov (.addrReg 0 8)).wf = false ∧ (Instr.qmov (.regAddr 8 0)).wf = false ∧
      (Instr.clear (.reg 255)).wf = false ∧ (Instr.out (.reg 8)).wf = false := by decide
theorem test_wf_out_token :
    (Instr.out (.addrShaped (line "10"))).wf = false ∧ (Instr.out (.addrShaped (line "[1 0]"))).wf = false ∧
      (Instr.out (.addrShaped (line "[300]"))).wf = true := by decide
theorem test_wf_if :
    (Instr.ifThen [] 8 .eq (.imm 0) [] none).wf = false ∧ (Instr.ifThen [] 0 .eq (.reg 8) [] none).wf = false ∧
      (Instr.ifThen [] 0 .eq (.imm 0) (toks ["ELSE"]) none).wf = false ∧
      (Instr.ifThen [] 0 .eq (.imm 0) [[]] none).wf = false ∧
      (Instr.ifThen [] 0 .eq (.imm 0) [] (some [line "a;b"])).wf = false := by decide

/-! ### Decoding: one slot per binary constructor, by R81 and the opcode table -/

theorem test_decode_load : decode [0x01, 0x07, 0xFF, 0x00] = .ok (.load 7 0xFF) := by decide
theorem test_decode_store : decode [0x02, 0x02, 0x22, 0x00] = .ok (.store 2 0x22) := by decide
theorem test_decode_add : decode [0x03, 0x00, 0x01, 0x02] = .ok (.add 0 1 2) := by decide
theorem test_decode_and : decode [0x04, 0x01, 0x02, 0x03] = .ok (.and 1 2 3) := by decide
theorem test_decode_or : decode [0x05, 0x01, 0x01, 0x04] = .ok (.or 1 1 4) := by decide
theorem test_decode_xor : decode [0x06, 0x03, 0x04, 0x05] = .ok (.xor 3 4 5) := by decide
theorem test_decode_not : decode [0x07, 0x00, 0x07, 0xFF] = .ok (.not 0 7) := by decide
theorem test_decode_jump : decode [0x08, 0xFF, 0xFF, 0xFF] = .ok (.jump 255) := by decide
theorem test_decode_reserved :
    decode [0x09] = .ok .initReserved ∧ decode [0x0A] = .ok .outReserved ∧ decode [0x0B] = .ok .clearReserved ∧
      decode [0xFE] = .ok .verReserved := by decide
theorem test_decode_halt : decode [0xFF, 0x09, 0x09, 0x09] = .ok .halt := by decide
theorem test_decode_rejects :
    decode [0x00, 0, 0, 0] = .error (.invalidOpcode 0) ∧ decode [0xFD, 0, 0, 0] = .error (.invalidOpcode 0xFD) ∧
      decode [0x03, 0, 1] = .error (.truncated 3) ∧ decode [] = .error (.truncated 0) := by decide
theorem test_decode_table_word :
    decodeTableWord 32 0x03000102 = some (.add 0 1 2) ∧ decodeTableWord 32 0x0B000000 = some .clearReserved ∧
      decodeTableWord 8 0xFF = some .halt ∧ decodeTableWord 32 0 = none := by decide

/-! ### Decoding: one line per text constructor, by R99 -/

/-- The instruction of a line. -/
def decodeLine (t : String) : Except MachError (Option Instr) := decodeTokens (line t) (tokenise (line t))

theorem test_line_load : decodeLine "LOAD R1 [5];x" = .ok (some (.load 1 5)) := by decide
theorem test_line_store : decodeLine "STORE R5, [0]" = .ok (some (.store 5 0)) := by decide
theorem test_line_add : decodeLine "ADD R0, R1, R2" = .ok (some (.add 0 1 2)) := by decide
theorem test_line_not : decodeLine "NOT R1 R3" = .ok (some (.not 1 3)) := by decide
theorem test_line_nand : decodeLine "NAND R1 R2 R3" = .ok (some (.nand 1 2 3)) := by decide
theorem test_line_nor : decodeLine "NOR R1 R2 R3" = .ok (some (.nor 1 2 3)) := by decide
theorem test_line_mov : decodeLine "  MOV \t R07   0x0f  " = .ok (some (.mov (.reg 7) (.imm 15))) := by decide
theorem test_line_qmov : decodeLine "QMOV [10] R0" = .ok (some (.qmov (.addrReg 10 0))) := by decide
theorem test_line_init : decodeLine "INIT [0xFF] = 0b11111111" = .ok (some (.init 255 255)) := by decide
theorem test_line_out : decodeLine "OUT 0x0F" = .ok (some (.out (.imm 15))) := by decide
theorem test_line_clear : decodeLine "CLEAR [10]" = .ok (some (.clear (.mem 10))) := by decide
theorem test_line_ver : decodeLine "VER 1" = .ok (some (.ver true)) := by decide
theorem test_line_if :
    decodeLine "IF R0 >= [9] THEN HALT ELSE IF R1 == 0 THEN HALT" =
      .ok (some (.ifThen (line "IF R0 >= [9] THEN HALT ELSE IF R1 == 0 THEN HALT") 0 .ge (.mem 9) (toks ["HALT"])
        (some (toks ["IF", "R1", "==", "0", "THEN", "HALT"])))) := by decide
theorem test_line_empty : decodeLine "   ; only comment" = .ok none := by decide

/-! ### Errors of the text decoder (V5 to V11) -/

/-- The error of a line. -/
def errorOf (t : String) : Option ErrorKind :=
  match decodeLine t with
  | .ok _ => none
  | .error e => some (errorKind e)

theorem test_errors_dispatch :
    ["load R1 [1]", "JUMP 8", "loop:", "HALT:", "FOO R9"].all (errorOf · == some .unknownInstruction) = true ∧
      ["ADD R0 R1", "HALT now", "VER 0 1", "INIT [5]=3", "CLEAR"].all (errorOf · == some .arityError) = true := by
  decide
theorem test_errors_registers :
    ["LOAD R9 [300]", "LOAD [5] R1", "ADD R0 R1 5", "NOT R, R1", "MOV R1,, 7", "ADD R0,R1 R2 R3", "QMOV R9 [1]",
      "NOT R1.0 R2", "IF R9 > 5 THEN HALT"].all (errorOf · == some .invalidRegister) = true := by decide
theorem test_errors_addresses :
    ["LOAD R1 [256]", "LOAD R1 [0x100]", "LOAD R1 [0b1]", "LOAD R1 [10", "LOAD R1 [10],", "LOAD R1 []",
      "INIT [256] = 300", "LOAD R1 5", "IF R0 > [256] THEN HALT"].all (errorOf · == some .invalidAddress) = true := by
  decide
theorem test_errors_immediates :
    ["MOV R1 256", "MOV R1 -1", "MOV R1 0X1F", "MOV R1 0x", "MOV R1 0b2", "MOV R1 5,", "MOV R1 r0", "INIT [5] = R1",
      "OUT 256"].all (errorOf · == some .invalidImmediate) = true := by decide
theorem test_errors_shapes :
    ["MOV 999 R1", "CLEAR 5"].all (errorOf · == some .invalidDestination) = true ∧
      ["QMOV R0 R1", "QMOV [1] [2]", "QMOV R0 5", "QMOV 5 [1]", "QMOV R9 R1"].all
        (errorOf · == some .invalidOperandCombination) = true ∧
      ["INIT [5] == 3", "INIT [5] 3 ="].all (errorOf · == some .syntaxError) = true ∧
      ["VER 2", "VER 0x1", "VER 01", "VER R0"].all (errorOf · == some .invalidFlag) = true := by decide
theorem test_errors_conditions :
    ["IF R0 > 5", "IF R0 > THEN HALT", "IF R0 > 5 6 THEN HALT", "IF 5 > R0 THEN HALT", "IF R0 => 5 THEN HALT",
      "IF R0 > 5 then HALT"].all (errorOf · == some .invalidCondition) = true := by decide

/-! ### One instruction each, by V4 to V10 -/

/-- One register and one cell of an answer. -/
def seen (a : Answer) (k : Fin 8) (m : Nat) : Option (Byte × Byte) :=
  (nextOf a).map fun t => (getReg t k, Memory.read t.mem m)

theorem test_exec_add : seen (exec (.add 1 2 1) v4) 1 0 = some (0x76, 0) := by decide
theorem test_exec_and : seen (exec (.and 1 2 3) v4) 3 0 = some (0x88, 0) := by decide
theorem test_exec_or : seen (exec (.or 1 2 3) v4) 3 0 = some (0xEE, 0) := by decide
theorem test_exec_xor : seen (exec (.xor 1 2 3) v4) 3 0 = some (0x66, 0) := by decide
theorem test_exec_nand : seen (exec (.nand 1 2 3) v4) 3 0 = some (0x77, 0) := by decide
theorem test_exec_nor : seen (exec (.nor 1 2 3) v4) 3 0 = some (0x11, 0) := by decide
theorem test_exec_not : seen (exec (.not 1 1) v4) 1 0 = some (0x33, 0) := by decide
theorem test_exec_load : seen (exec (.load 7 255) (small v4.x [(255, 9)])) 7 255 = some (9, 9) := by decide
theorem test_exec_store : seen (exec (.store 2 0x22) v4) 2 0x22 = some (0xAA, 0xAA) := by decide
theorem test_exec_mov_mem_mem : seen (exec (.mov (.mem 2) (.mem 1)) (small v4.x [(1, 4)])) 0 2 = some (0, 4) := by decide
theorem test_exec_mov_reg_imm : seen (exec (.mov (.reg 7) (.imm 15)) v4) 7 0 = some (15, 0) := by decide
theorem test_exec_qmov_out : seen (exec (.qmov (.regAddr 1 10)) v4) 1 10 = some (0, 0xCC) := by decide
theorem test_exec_qmov_in : seen (exec (.qmov (.addrReg 10 2)) (small v4.x [(10, 5)])) 2 10 = some (5, 0) := by decide
theorem test_exec_init : seen (exec (.init 3 0) (small v4.x [(3, 9)])) 0 3 = some (0, 0) := by decide
theorem test_exec_clear : seen (exec (.clear (.reg 2)) v4) 2 0 = some (0, 0) := by decide
theorem test_exec_out : (nextOf (exec (.out (.reg 1)) v4)).map (·.diag) = some [.out 0xCC] := by decide
theorem test_exec_out_address :
    refusalOf (execText (line "IF R0 == 0 THEN OUT [10]") v4) = some (.outAddressForm (line "[10]")) := by decide
theorem test_exec_ver : (nextOf (exec (.ver true) v4)).map (·.verbose) = some true := by decide
theorem test_exec_halt : nextOf (exec .halt (runAt 0 [])) =
    some { runAt 0 [] with run := .halted, outcome := .halt } := by decide
theorem test_exec_jump : (nextOf (exec (.jump 0x5A) v4)).map (·.pc) = some 0x5A := by decide
theorem test_exec_reserved : nextOf (exec .verReserved (runAt 8 [])) =
    some { runAt 8 [] with run := .stopped (.invalidOpcode 0xFE), outcome := .error (.invalidOpcode 0xFE) } := by decide
/-- V10: the ELSE of a nested IF belongs to the outer one (R101). -/
theorem test_exec_if_dangling :
    seen (execText (line "IF R0 == 0 THEN IF R1 == 1 THEN MOV R2 1 ELSE MOV R2 2") State.reset) 2 0 = some (0, 0) := by
  decide
/-- V10: three levels. -/
theorem test_exec_if_nested :
    seen (execText (line "IF R0 == 0 THEN IF R0 == 0 THEN IF R0 == 0 THEN MOV R5 9") State.reset) 5 0 = some (9, 0) := by
  decide

/-! ### One binary step each, by V12 -/

/-- The program counter and the run status after one step. -/
def after (s : State) : Option (Nat × RunStatus) := (nextOf (step s)).map fun t => (t.pc, t.run)

theorem test_step_store_own_slot :
    (nextOf (step (runAt 0 [(0, 0x02)]))).map (fun t => (t.pc, Memory.read t.mem 0)) = some (4, 0) := by decide
theorem test_step_register_order : after (runAt 0 [(0, 0x03), (1, 0x08), (2, 0x09), (3, 0x0A)]) =
    some (0, .stopped (.invalidRegister (.byte 8))) := by decide
theorem test_step_top_add : after (runAt 253 [(253, 0x03)]) = some (253, .stopped (.outOfBounds 256)) := by decide
theorem test_step_top_load : after (runAt 253 [(253, 0x01)]) = some (257, .running .binary) := by decide
theorem test_step_top_halt : after (runAt 255 [(255, 0xFF)]) = some (255, .halted) := by decide
theorem test_step_top_illegal : after (runAt 255 []) = some (255, .stopped (.invalidOpcode 0)) := by decide
theorem test_step_past_top : after (runAt 256 []) = some (256, .stopped (.outOfBounds 256)) := by decide
theorem test_step_placed_word :
    (nextOf (step (State.reset.withFetchWord 32 0x07000100))).map (fun t => (t.pc, getReg t 1)) = some (4, 0xFF) := by
  decide

/-! ### The host's operations, by V1 and R60 -/

theorem test_dump :
    dump 0 3 (small v4.x [(0, 5), (1, 0xFF), (2, 0x80)]) = [line "00000101", line "11111111", line "10000000"] := by
  decide
theorem test_dump_clamped : dump 255 10 v4 = [line "00000000"] ∧ dump 256 1 v4 = [] ∧ dump 10 0 v4 = [] := by decide
theorem test_load_image : (loadImage [0xFF, 0, 7] (small v4.x [(1, 3)])).1.mem = [(0, 0xFF), (2, 7)] := by decide

/-! ### Witnesses: the hypotheses of the statements can be met -/

theorem witness_DecodeUndoesEncode : encode (.add 255 0 7) = some [0x03, 0xFF, 0x00, 0x07] := by decide
theorem witness_UnusedSlotBytesIgnored : ([0x07, 0xFF] : List Byte).length = operandCount .load := by decide
theorem witness_TextDecodeUndoesEncode :
    (Instr.ifThen (line "L") 7 .ge (.mem 255) (toks ["IF", "R1", "==", "0", "THEN", "HALT"]) (some [])).wf = true ∧
      encodeText (.ifThen (line "L") 7 .ge (.mem 255) (toks ["IF", "R1", "==", "0", "THEN", "HALT"]) (some [])) =
        some (toks ["IF", "R7", ">=", "[255]", "THEN", "IF", "R1", "==", "0", "THEN", "HALT", "ELSE"]) := by decide
theorem witness_TextLineRunsItsInstruction :
    (Instr.ifThen (line "IF R7 != 255 THEN") 7 .ne (.imm 255) [] none).wf = true ∧
      encodeText (.ifThen (line "IF R7 != 255 THEN") 7 .ne (.imm 255) [] none) =
        some (toks ["IF", "R7", "!=", "255", "THEN"]) ∧
      unwords (toks ["IF", "R7", "!=", "255", "THEN"]) = line "IF R7 != 255 THEN" := by decide
theorem witness_OperandTokensReadTheirValue :
    (resolveImm (line "255") = .ok 255 ∧ resolveImm (line "256") = .error (.invalidImmediate (line "256")) ∧
      resolveReg (line "R7,") = .ok 7 ∧ resolveReg (line "R8") = .error (.invalidRegister (.token (line "R8")))) ∧
      (regNumeral (line "R07,") 7 ∧ addrNumeral (line "[0xfF]") 255 ∧ immNumeral (line "0b0101") 5) ∧
      ((¬ ∃ n, regNumeral [] n ∧ n < 8) ∧ (¬ ∃ n, addrNumeral [] n ∧ n < 256) ∧ ¬ ∃ n, immNumeral [] n ∧ n ≤ 255) := by
  refine ⟨by decide, ⟨⟨line "07", ?_, by decide⟩, ⟨line "fF", .inr ⟨?_, by decide⟩⟩,
    ⟨line "0101", .inr (.inr ⟨?_, by decide⟩)⟩⟩, ?_, ?_, ?_⟩
  iterate 3 · simp [line, writesNumber, digitChars, digitNumber, List.idxOf, List.findIdx, List.findIdx.go]
  · rintro ⟨n, ⟨cs, -, h | h⟩, -⟩ <;> cases h
  · rintro ⟨n, ⟨cs, ⟨-, h⟩ | ⟨-, h⟩⟩, -⟩ <;> cases h
  · rintro ⟨n, ⟨cs, ⟨hw, h⟩ | ⟨-, h⟩ | ⟨-, h⟩⟩, -⟩
    · exact hw.1 h.symm
    · cases h
    · cases h
theorem witness_UnknownMnemonicFails :
    tokenise (line "Load R1 [1]") = toks ["Load", "R1", "[1]"] ∧
      line "Load" ∉ ["LOAD", "STORE", "ADD", "AND", "OR", "NAND", "NOR", "XOR", "NOT", "MOV", "QMOV", "INIT", "CLEAR",
        "OUT", "VER", "IF", "HALT"].map String.toList := by decide
theorem witness_WrongTokenCountFails :
    tokenise (line "HALT now") = "HALT".toList :: toks ["now"] ∧ (toks ["now"]).length + 1 ≠ 1 ∧
      (toks ["R9", "300"]).length + 1 = 3 := by decide
theorem witness_SeparatorAndShapesAreChecked :
    (line "==" ≠ ['='] ∧ (toks ["[5]=3"]).length ≠ 3) ∧
      decodeTokens [] (toks ["INIT", "R9", "==", "999"]) = .error (.syntaxError []) ∧
      decodeTokens [] (toks ["MOV", "999", "R9"]) = .error (.invalidDestination (line "999")) ∧
      decodeTokens [] (toks ["CLEAR", "r0"]) = .error (.invalidDestination (line "r0")) ∧
      decodeTokens [] (toks ["QMOV", "R9", "R1"]) = .error (.invalidOperandCombination []) ∧
      decodeTokens [] (toks ["IF", "R0", ">", "THEN", "THEN", "HALT"]) = .error (.invalidCondition []) := by decide
theorem witness_StepRunsDecodedInstruction :
    (runAt 252 [(252, 0x03), (255, 0x07)]).run = .running .binary ∧
      bytesAt (runAt 252 [(252, 0x03), (255, 0x07)]) 252 [0x03, 0, 0, 7] ∧ decode [0x03, 0, 0, 7] = .ok (.add 0 0 7) ∧
      (nextOf (exec (.add 0 0 7) (runAt 252 [(252, 0x03), (255, 0x07)]))).isSome = true := by decide
theorem witness_TextAndWaitingSteps :
    (startText [line "HALT"] State.reset).run = .running (.text [line "HALT"]) ∧
      (startText [] State.reset).run = .running (.text []) ∧ notRunning State.reset = true := by decide
theorem witness_ExecTextRunsDecodedTokens :
    tokenise (line " ;") = [] ∧ decodeTokens (line "HALT") (tokenise (line "HALT")) = .ok (some .halt) ∧
      decodeTokens (line "NOP") (tokenise (line "NOP")) = .error (.unknownInstruction (line "NOP")) := by decide
theorem witness_OutcomeSettlesTheRun :
    (runAt 0 []).run = .running .binary ∧ notRunning State.reset = true := by decide
theorem witness_RejectedOpcodesStopTheRun :
    (runAt 255 [(255, 0xFE)]).run = .running .binary ∧ (runAt 255 [(255, 0xFE)]).pc < 256 ∧
      ∀ op ∈ ([0x01, 0x02, 0x03, 0x04, 0x05, 0x06, 0x07, 0x08, 0xFF] : List Byte),
        Memory.read (runAt 255 [(255, 0xFE)]).mem (runAt 255 [(255, 0xFE)]).pc ≠ op := by decide
theorem witness_FetchStopsAtTheTopOfMemory :
    ((runAt 256 []).run = .running .binary ∧ 256 ≤ (runAt 256 []).pc) ∧
      ((runAt 253 [(253, 0x03)]).pc < 256 ∧ opcodeOf (Memory.read (runAt 253 [(253, 0x03)]).mem 253) = some .add ∧
        256 ≤ 253 + operandCount .add) ∧
      (opcodeOf (Memory.read (runAt 253 [(253, 0x01)]).mem 253) = some .load ∧ 253 + operandCount .load < 256) ∧
      ((runAt 255 []).pc < 256 ∧ opcodeOf (Memory.read (runAt 255 []).mem 255) = none) ∧
      ((runAt 255 [(255, 0x0A)]).run = .running .binary ∧
        ∀ op ∈ ([0x01, 0x02, 0x03, 0x04, 0x05, 0x06, 0x07, 0x08, 0xFF] : List Byte),
          Memory.read (runAt 255 [(255, 0x0A)]).mem 255 ≠ op) := by decide
theorem witness_ProgramCounterRule :
    fetchInstr (runAt 252 [(252, 0x08), (253, 0xFF)]) = .ok (.jump 255) ∧
      (nextOf (stepBinary (runAt 252 [(252, 0x08), (253, 0xFF)]))).map (·.outcome) = some .cont ∧
      fetchInstr (runAt 255 [(255, 0xFF)]) = .ok .halt ∧
      (nextOf (stepBinary (runAt 255 [(255, 0xFF)]))).map (·.outcome) = some .halt ∧
      fetchInstr (runAt 255 []) = .error (.invalidOpcode 0) ∧ (nextOf (stepBinary (runAt 255 []))).isSome = true ∧
      (nextOf (execText (line "CLEAR R0") v4)).isSome = true := by decide
theorem witness_AddWritesTheSum : (0 : Byte).toNat < 8 ∧ (7 : Byte).toNat < 8 ∧ (6 : Byte).toNat < 8 := by decide
theorem witness_LogicInstructionsWriteBitwise :
    (7 : Byte).toNat < 8 ∧ (0 : Byte).toNat < 8 ∧ (7 : Byte).toNat < 8 := by decide
theorem witness_NotWritesTheComplement : (7 : Byte).toNat < 8 ∧ (0 : Byte).toNat < 8 := by decide
theorem witness_LoadCopiesTheCell : (7 : Byte).toNat < 8 := by decide
theorem witness_StoreCopiesTheRegister : (7 : Byte).toNat < 8 ∧ Memory.wf (small v4.x [(0, 1), (255, 9)]).mem := by
  decide
theorem witness_MovCopiesInAllSixForms :
    (7 : Byte).toNat < 8 ∧ (0 : Byte).toNat < 8 ∧ Memory.wf (small v4.x [(0, 1), (255, 9)]).mem := by decide
theorem witness_QmovMovesAndClears : (7 : Byte).toNat < 8 ∧ Memory.wf (small v4.x [(10, 5)]).mem := by decide
theorem witness_InitWritesTheValue : Memory.wf (small v4.x [(3, 9), (255, 1)]).mem := by decide
theorem witness_ClearZeroesItsTarget : (7 : Byte).toNat < 8 ∧ Memory.wf (small v4.x [(255, 5)]).mem := by decide
theorem witness_OutAppendsTheEvent : (7 : Byte).toNat < 8 := by decide
theorem witness_OutOfAnAddressIsRefused : tokenise (line "OUT [300]") = ["OUT".toList, '[' :: line "300]"] := by decide
theorem witness_HaltEndsTheRun :
    (runAt 255 [(255, 0xFF)]).run = .running .binary ∧ (runAt 255 [(255, 0xFF)]).pc < 256 ∧
      Memory.read (runAt 255 [(255, 0xFF)]).mem 255 = 0xFF := by decide
theorem witness_JumpSetsTheProgramCounter :
    ((runAt 254 [(254, 0x08)]).pc < 255 ∧ Memory.read (runAt 254 [(254, 0x08)]).mem 254 = 0x08) ∧
      ((runAt 255 [(255, 0x08)]).pc = 255 ∧ Memory.read (runAt 255 [(255, 0x08)]).mem 255 = 0x08) ∧
      (runAt 255 [(255, 0x08)]).run = .running .binary := by decide
theorem witness_IfRunsTheSelectedClause :
    sourceValue (.reg 7) v4 = .ok 0 ∧ compareBytes .gt (v4.x[1]) 0 = true ∧ compareBytes .lt (v4.x[1]) 0 = false ∧
      decodeTokens [] (toks ["HALT"]) = .ok (some .halt) := by decide
theorem witness_IfWorkedExample :
    5 < (small #v[10, 3, 0, 0, 0, 0, 0, 0] []).x[0].toNat ∧ (small #v[5, 3, 9, 0, 0, 0, 0, 0] []).x[0].toNat ≤ 5 := by
  decide
theorem witness_VerSetsTheFlag :
    tokenise (line "VER 01") = ["VER".toList, line "01"] ∧ tokenise (line "VER 0 1") = "VER".toList :: toks ["0", "1"] ∧
      (toks ["0", "1"]).length ≠ 1 ∧ (runAt 255 [(255, 0xFE)]).pc < 256 ∧
      Memory.read (runAt 255 [(255, 0xFE)]).mem 255 = 0xFE := by decide
theorem witness_BadRegisterByteRaises :
    (regOperands (.add 7 8 255)).find? (fun r => !decide (r.toNat < 8)) = some 8 ∧
      (regOperands (.ifThen [] 0 .eq (.reg 255) [] none)).find? (fun r => !decide (r.toNat < 8)) = some 255 := by decide
theorem witness_WellFormedInstructionsComplete :
    (Instr.qmov (.regAddr 7 255)).wf = true ∧ (Instr.qmov (.regAddr 7 255)).carriedLine = none ∧ Instr.halt.wf = true := by
  decide
theorem witness_RegisterInstructionFrame :
    regDest (.not 0 7) = some 7 ∧ (nextOf (exec (.not 0 7) v4)).isSome = true ∧
      regDest (.mov (.reg 0) (.mem 255)) = some 0 ∧ regDest (.clear (.reg 3)) = some 3 := by decide
theorem witness_StoringInstructionFrame :
    memDest (.store 1 255) = some 255 ∧ (nextOf (exec (.store 1 255) v4)).isSome = true ∧
      memDest (.mov (.mem 0) (.imm 1)) = some 0 := by decide
theorem witness_QmovFrame :
    (nextOf (exec (.qmov (.regAddr 7 255)) v4)).isSome = true ∧
      (nextOf (exec (.qmov (.addrReg 0 0)) v4)).isSome = true := by decide
theorem witness_SystemInstructionFrame :
    writesNothing (.out (.imm 0)) = true ∧ (nextOf (exec (.out (.imm 0)) v4)).isSome = true ∧
      writesNothing (.jump 255) = true ∧ (nextOf (exec (.jump 255) v4)).isSome = true := by decide
theorem witness_ErrorsArePrecise :
    (nextOf (exec (.load 8 0) (runAt 0 []))).map (·.outcome) = some (.error (.invalidRegister (.byte 8))) ∧
      (nextOf (execText (line "LOAD R9 [0]") v4)).map (·.outcome) =
        some (.error (.invalidRegister (.token (line "R9")))) ∧
      (nextOf (stepBinary (runAt 0 []))).map (·.outcome) = some (.error (.invalidOpcode 0)) ∧
      (runAt 0 []).run = .running .binary ∧ notRunning v4 = true := by decide
theorem witness_StepKeepsTheInvariant :
    (runAt 255 [(255, 0xFF)]).Inv ∧ (nextOf (step (runAt 255 [(255, 0xFF)]))).isSome = true ∧
      (runAt 253 [(253, 0x01)]).Inv ∧ (nextOf (step (runAt 253 [(253, 0x01)]))).map (·.pc) = some 257 := by decide
theorem witness_HostOperationsKeepTheInvariant :
    (runAt 259 [(0, 1)]).Inv ∧
      (match memWrite 255 7 (runAt 259 [(0, 1)]) with | .ok t => t.mem | .error _ => []) = [(0, 1), (255, 7)] ∧
      (nextOf (execText (line "CLEAR [0]") (runAt 259 [(0, 1)]))).map (·.mem) = some [] ∧
      (nextOf (stepBinary (runAt 259 [(0, 1)]))).isSome = true := by decide
theorem witness_BinaryStepsLeaveDiagAndVerbose : (nextOf (stepBinary (runAt 252 [(252, 0xFF)]))).isSome = true := by decide
theorem witness_DiagnosticStreamOnlyGrows :
    (nextOf (exec (.out (.imm 255)) v4)).map (·.diag) = some [.out 255] ∧
      (nextOf (exec (.ver true) v4)).map (·.diag) = some [] := by decide
theorem witness_BookkeepingIsNeverRead :
    v4.x = { v4 with verbose := true, diag := [.out 1] }.x ∧ v4.pc = { v4 with verbose := true, diag := [.out 1] }.pc ∧
      v4.mem = { v4 with verbose := true, diag := [.out 1] }.mem ∧ v4 ≠ { v4 with verbose := true, diag := [.out 1] } ∧
      (nextOf (exec (.out (.reg 1)) v4)).isSome = true ∧
      refusalOf (exec (.out (.addrShaped (line "[0]"))) v4) = some (.outAddressForm (line "[0]")) := by decide
theorem witness_TextAndBinaryAgree :
    (Instr.not 7 0).wf = true ∧ encode (.not 7 0) = some [0x07, 0x07, 0, 0] ∧
      encodeText (.not 7 0) = some (toks ["NOT", "R7", "R0"]) ∧
      bytesAt (runAt 252 [(252, 0x07), (253, 0x07)]) 252 [0x07, 0x07, 0, 0] ∧
      (nextOf (stepBinary (runAt 252 [(252, 0x07), (253, 0x07)]))).isSome = true := by decide
theorem witness_TextRunsTerminate :
    (nextOf (runText [line "VER 1", line "HALT", line "OUT 1"] State.reset)).map (·.run) = some .halted ∧
      (nextOf (runText [line "VER 1"] State.reset)).map (·.run) = some .idle := by decide
theorem witness_JumpToItselfNeverEnds :
    (runAt 254 [(254, 0x08), (255, 254)]).run = .running .binary ∧ (runAt 254 [(254, 0x08), (255, 254)]).outcome = .cont ∧
      (runAt 254 [(254, 0x08), (255, 254)]).pc < 255 ∧
      Memory.read (runAt 254 [(254, 0x08), (255, 254)]).mem 254 = 0x08 ∧
      (Memory.read (runAt 254 [(254, 0x08), (255, 254)]).mem 255).toNat = 254 := by decide
theorem witness_BinaryRunErrors :
    (nextOf (stepBinary (runAt 0 [(0, 0x02), (1, 0xFF)]))).map (·.outcome) =
      some (.error (.invalidRegister (.byte 255))) := by decide
theorem witness_StoreIsSeenByTheNextFetch :
    (7 : Byte).toNat < 8 ∧ (runAt 251 [(251, 0x02), (252, 7), (253, 255)]).run = .running .binary ∧
      Memory.wf (runAt 251 [(251, 0x02), (252, 7), (253, 255)]).mem ∧
      bytesAt (runAt 251 [(251, 0x02), (252, 7), (253, 255)]) 251 [0x02, 7, 255] ∧ (255 : Byte).toNat = 251 + 4 := by
  decide
theorem witness_ReadAfterWrite : (255 : Nat) < 256 ∧ (256 : Nat) ≤ 256 ∧ Memory.wf (runAt 0 [(255, 1)]).mem := by decide
theorem witness_DumpIsClamped : 0 < (dump 255 10 v4).length ∧ (256 : Nat) ≤ 256 := by decide
theorem witness_LoadImageFillsFromZero :
    (List.replicate 256 (1 : Byte)).length ≤ 256 ∧ ¬ (List.replicate 257 (1 : Byte)).length ≤ 256 ∧
      Memory.wf v4.mem := by
  simp only [List.length_replicate]
  decide
theorem witness_RenderWritesEightBits : (0 : Nat) < 8 ∧ (7 : Nat) < 8 := by decide
theorem witness_ResetState : (0 : Nat) < 8 ∧ (7 : Nat) < 8 ∧ (255 : Nat) < 256 := by decide
theorem witness_LogicUnitFunctions : (0 : Nat) < 8 ∧ (7 : Nat) < 8 := by decide

end Sys2Proof.Tests
end

/-! SUPPORT. How `pc` moves (10_state.md R25). The key fact: every instruction but JUMP commutes with a change of `pc`,
so it neither reads nor writes it, and no text line decodes to a JUMP, at any nesting of IF. -/

namespace Sys2Proof.Machine

/-! ### Computations that commute with a change of `pc` -/

/-- An answer with `pc` of its next state, if it has one, replaced. -/
def answerAtPc (p : Nat) : Answer → Answer
  | .next t => .next { t with pc := p }
  | .fault r => .fault r
  | .refused r => .refused r

/-- From another `pc`, the same answer with that `pc`: the meaning neither reads nor writes `pc`. -/
def IgnoresPc (f : State → Answer) : Prop := ∀ (s : State) (p : Nat), f { s with pc := p } = answerAtPc p (f s)

/-- The same of the checked computation that `commit` ends an instruction with. -/
def EffectIgnoresPc (c : State → Except MachError State) : Prop :=
  ∀ (s : State) (p : Nat), c { s with pc := p } = (c s).map fun t => { t with pc := p }

/-- What ignores `pc` leaves it as it was: take for the other `pc` the state's own. -/
theorem IgnoresPc.pc_eq {f : State → Answer} (hf : IgnoresPc f) {s t : State} (h : f s = .next t) : t.pc = s.pc := by
  have hself : f s = answerAtPc s.pc (f s) := hf s s.pc
  rw [h] at hself
  have ht : t = { t with pc := s.pc } := Host.Outcome.next.inj hself
  have hpc := congrArg State.pc ht
  exact hpc

theorem IgnoresPc.of_commit {c : State → Except MachError State} (hc : EffectIgnoresPc c) :
    IgnoresPc fun s => commit s (c s) := by
  intro s p
  simp only [hc s p]
  cases c s <;> rfl

/-- A read or a check whose result does not depend on `pc`, and then a computation that ignores it. -/
theorem EffectIgnoresPc.bind {α : Type} {g : State → Except MachError α} {c : α → State → Except MachError State}
    (hg : ∀ (s : State) (p : Nat), g { s with pc := p } = g s) (hc : ∀ a, EffectIgnoresPc (c a)) :
    EffectIgnoresPc fun s => g s >>= fun a => c a s := by
  intro s p
  simp only [hg s p]
  cases g s with
  | error e => rfl
  | ok a => exact hc a s p

theorem EffectIgnoresPc.andThen {c d : State → Except MachError State} (hc : EffectIgnoresPc c)
    (hd : EffectIgnoresPc d) : EffectIgnoresPc fun s => c s >>= d := by
  intro s p
  simp only [hc s p]
  cases c s with
  | error e => rfl
  | ok t => exact hd t p

theorem EffectIgnoresPc.pure {w : State → State}
    (hw : ∀ (s : State) (p : Nat), w { s with pc := p } = { w s with pc := p }) :
    EffectIgnoresPc fun s => pure (w s) := fun s p => congrArg Except.ok (hw s p)

theorem memWrite_ignoresPc {a : Nat} {v : State → Byte} {w : State → State}
    (hv : ∀ (s : State) (p : Nat), v { s with pc := p } = v s)
    (hw : ∀ (s : State) (p : Nat), w { s with pc := p } = { w s with pc := p }) :
    EffectIgnoresPc fun s => memWrite a (v s) (w s) := by
  intro s p
  simp only [hv s p, hw s p, memWrite]
  split <;> rfl

theorem writePlace_ignoresPc (q : Place) (v : Byte) : EffectIgnoresPc (writePlace q v) := by
  cases q with
  | reg r => exact .bind (fun _ _ => rfl) fun i => .pure fun _ _ => rfl
  | mem a => exact memWrite_ignoresPc (fun _ _ => rfl) fun _ _ => rfl

/-- Reading a source does not read `pc`. -/
theorem sourceValue_atPc (o : Source) (s : State) (p : Nat) : sourceValue o { s with pc := p } = sourceValue o s := by
  cases o <;> rfl

/-! ### Every instruction but JUMP ignores `pc` -/

theorem threeRegOp_ignoresPc (f : Byte → Byte → Byte) (a b c : Byte) : IgnoresPc (threeRegOp f a b c) :=
  .of_commit <| .bind (fun _ _ => rfl) fun _ => .bind (fun _ _ => rfl) fun _ => .bind (fun _ _ => rfl) fun _ =>
    .pure fun _ _ => rfl

theorem execNot_ignoresPc (a b : Byte) : IgnoresPc (execNot a b) :=
  .of_commit <| .bind (fun _ _ => rfl) fun _ => .bind (fun _ _ => rfl) fun _ => .pure fun _ _ => rfl

theorem execLoad_ignoresPc (d m : Byte) : IgnoresPc (execLoad d m) :=
  .of_commit <| .bind (fun _ _ => rfl) fun _ => .bind (fun _ _ => rfl) fun _ => .pure fun _ _ => rfl

theorem execStore_ignoresPc (r m : Byte) : IgnoresPc (execStore r m) :=
  .of_commit <| .bind (fun _ _ => rfl) fun _ => memWrite_ignoresPc (fun _ _ => rfl) fun _ _ => rfl

theorem execMov_ignoresPc (d : Place) (o : Source) : IgnoresPc (execMov d o) :=
  .of_commit <| .bind (fun _ _ => rfl) fun _ => .bind (sourceValue_atPc o) fun v => writePlace_ignoresPc d v

theorem execQmov_ignoresPc (f : QmovForm) : IgnoresPc (execQmov f) := by
  refine .of_commit ?_
  cases f with
  | regAddr r a =>
    exact .bind (fun _ _ => rfl) fun i => .andThen (memWrite_ignoresPc (fun _ _ => rfl) fun _ _ => rfl) <|
      .pure fun _ _ => rfl
  | addrReg a r =>
    exact .bind (fun _ _ => rfl) fun i => .bind (fun _ _ => rfl) fun v =>
      memWrite_ignoresPc (fun _ _ => rfl) fun _ _ => rfl

theorem execOut_ignoresPc (o : OutTarget) : IgnoresPc (execOut o) := by
  cases o with
  | reg r => exact .of_commit <| .bind (fun _ _ => rfl) fun i => .pure fun _ _ => rfl
  | imm v => exact fun _ _ => rfl
  | addrShaped tok => exact fun _ _ => rfl

/-- Every instruction but JUMP and IF ignores `pc`; an IF out of levels is refused whatever `pc` holds. -/
theorem execLeaf_ignoresPc {i : Instr} (hi : isJump i = false) : IgnoresPc (execLeaf i) := by
  cases i with
  | load d m => exact execLoad_ignoresPc d m
  | store r m => exact execStore_ignoresPc r m
  | add a b c => exact threeRegOp_ignoresPc _ a b c
  | and a b c => exact threeRegOp_ignoresPc _ a b c
  | or a b c => exact threeRegOp_ignoresPc _ a b c
  | xor a b c => exact threeRegOp_ignoresPc _ a b c
  | nand a b c => exact threeRegOp_ignoresPc _ a b c
  | nor a b c => exact threeRegOp_ignoresPc _ a b c
  | not a b => exact execNot_ignoresPc a b
  | jump t => cases hi
  | mov d o => exact execMov_ignoresPc d o
  | qmov f => exact execQmov_ignoresPc f
  | init a v => exact .of_commit <| memWrite_ignoresPc (fun _ _ => rfl) fun _ _ => rfl
  | out o => exact execOut_ignoresPc o
  | clear q => exact .of_commit <| writePlace_ignoresPc q 0
  | initReserved | outReserved | clearReserved | verReserved | halt | ver | ifThen => exact fun _ _ => rfl

/-! ### No tokens decode to a JUMP -/

/-- The decoding, where it succeeds, gives no JUMP. -/
def NoJump (x : Except MachError Instr) : Prop := ∀ i, x = .ok i → isJump i = false

theorem NoJump.error (e : MachError) : NoJump (.error e) := fun _ h => by cases h

theorem NoJump.pure {i : Instr} (hi : isJump i = false) : NoJump (pure i) := fun _ h => pure_ok h ▸ hi

theorem NoJump.bind {α : Type} {x : Except MachError α} {f : α → Except MachError Instr} (hf : ∀ a, NoJump (f a)) :
    NoJump (x >>= f) := by
  intro i h
  obtain ⟨a, -, ha⟩ := bind_ok h
  exact hf a i ha

theorem threeRegs_noJump {f : Byte → Byte → Byte → Instr} (hf : ∀ a b c, isJump (f a b c) = false)
    (t1 t2 t3 : Token) : NoJump (threeRegs f t1 t2 t3) :=
  .bind fun a => .bind fun b => .bind fun c => .pure (hf a b c)

theorem decodeOperands_noJump (line : Line) (m : Token) (k : Mnemonic) (args : List Token) :
    NoJump (decodeOperands line m k args) := by
  unfold decodeOperands
  split
  case h_1 | h_2 | h_9 | h_10 => exact .bind fun _ => .bind fun _ => .pure rfl
  case h_3 | h_4 | h_5 | h_6 | h_7 | h_8 => exact threeRegs_noJump (fun _ _ _ => rfl) _ _ _
  case h_11 | h_13 | h_14 | h_15 => exact .bind fun _ => .pure rfl
  case h_12 =>
    split
    · exact .bind fun _ => .bind fun _ => .pure rfl
    · exact .error _
  case h_16 => exact .pure rfl
  case h_17 => exact .error _

theorem decodeIf_noJump (line : Line) (args : List Token) : NoJump (decodeIf line args) := by
  unfold decodeIf
  split
  · split
    · split
      · exact .bind fun _ => .bind fun _ => .pure rfl
      · exact .error _
    · exact .error _
  · exact .error _

theorem decodeInstr_noJump (line : Line) (m : Token) (args : List Token) : NoJump (decodeInstr line m args) := by
  unfold decodeInstr
  split
  · exact .error _
  · split
    · exact decodeIf_noJump line args
    · split
      · exact decodeOperands_noJump line m _ args
      · exact .error _

/-- JUMP has no text form (R206): no token list decodes to it. -/
theorem isJump_eq_false_of_decodeTokens {line : Line} {toks : List Token} {i : Instr}
    (h : decodeTokens line toks = .ok (some i)) : isJump i = false := by
  cases toks with
  | nil => cases h
  | cons m args =>
    simp only [decodeTokens] at h
    split at h
    next j hj =>
      cases h
      exact decodeInstr_noJump line m args i hj
    next => cases h

/-! ### IF and text lines ignore `pc` -/

theorem runClause_ignoresPc {f : Instr → State → Answer} (hf : ∀ i, isJump i = false → IgnoresPc (f i)) (line : Line)
    (toks : List Token) : IgnoresPc (runClause f line toks) := by
  intro s p
  unfold runClause
  split
  · rfl
  · rfl
  next i hi => exact hf i (isJump_eq_false_of_decodeTokens hi) s p

/-- A condition does not read `pc`. -/
theorem condHolds_atPc (a : Byte) (op : CmpOp) (o : Source) (s : State) (p : Nat) :
    condHolds a op o { s with pc := p } = condHolds a op o s := by
  simp only [condHolds, sourceValue_atPc, getReg]

theorem selectClause_ignoresPc {f : Instr → State → Answer} (hf : ∀ i, isJump i = false → IgnoresPc (f i)) (line : Line)
    (a : Byte) (op : CmpOp) (o : Source) (th : List Token) (el : Option (List Token)) :
    IgnoresPc (selectClause f line a op o th el) := by
  intro s p
  simp only [selectClause, condHolds_atPc]
  split
  · rfl
  · exact runClause_ignoresPc hf line th s p
  · cases el with
    | none => rfl
    | some ts => exact runClause_ignoresPc hf line ts s p

theorem execNested_ignoresPc (n : Nat) {i : Instr} (hi : isJump i = false) : IgnoresPc (execNested n i) := by
  induction n generalizing i with
  | zero => exact execLeaf_ignoresPc hi
  | succ n ih =>
    cases i with
    | ifThen line a op o th el => exact selectClause_ignoresPc (fun j hj => ih hj) line a op o th el
    | _ => exact execLeaf_ignoresPc hi

/-- Every instruction but JUMP ignores `pc`. -/
theorem exec_ignoresPc {i : Instr} (hi : isJump i = false) : IgnoresPc (exec i) := by
  cases i with
  | ifThen line a op o th el => exact execNested_ignoresPc _ hi
  | _ => exact execLeaf_ignoresPc hi

/-- "No text-level instruction reads or writes `pc`" (R25). -/
theorem execText_ignoresPc (line : Line) : IgnoresPc (execText line) :=
  runClause_ignoresPc (fun _ hi => exec_ignoresPc hi) line (tokenise line)

/-! ### `pc` after a binary step -/

theorem stepBinary_of_fetch {s : State} {i : Instr} (hf : fetchInstr s = .ok i) :
    stepBinary s = advancePc i (exec i s) := by
  simp only [stepBinary, hf]

theorem stepBinary_of_fetch_error {s : State} {e : MachError} (hf : fetchInstr s = .error e) :
    stepBinary s = takeError e s := by
  simp only [stepBinary, hf]

/-- A fetched JUMP continues at its target, with no advance (R206). -/
theorem stepBinary_jump {s : State} {a : Byte} (hf : fetchInstr s = .ok (.jump a)) :
    stepBinary s = completeWith { s with pc := a.toNat } :=
  stepBinary_of_fetch hf

/-- After any other instruction `pc` has advanced by one slot exactly where the instruction continued (R208). -/
theorem stepBinary_pc_of_not_jump {s t : State} {i : Instr} (hf : fetchInstr s = .ok i) (hi : isJump i = false)
    (h : stepBinary s = .next t) : t.pc = if t.outcome = .cont then s.pc + Config.slot else s.pc := by
  rw [stepBinary_of_fetch hf] at h
  cases hu : exec i s with
  | fault r => cases r
  | refused r => rw [hu] at h; cases h
  | next u =>
    have hpc : u.pc = s.pc := (exec_ignoresPc hi).pc_eq hu
    rw [hu] at h
    obtain rfl := Host.Outcome.next.inj h
    by_cases hc : u.outcome = .cont <;> simp [hc, hi, hpc]

/-- Settles O16: a JUMP continues at its target; every other instruction ignores `pc`, so only the advance of the
binary step moves it; and no text line decodes to a JUMP. -/
theorem programCounterRule : Obligations.ProgramCounterRule := by
  refine ⟨fun s t i hf h => ?_, fun s t e hf h => ?_, fun s => rfl, fun line s t h => ?_⟩
  · cases i with
    | jump a =>
      cases (stepBinary_jump hf).symm.trans h
      exact ⟨fun _ => rfl, fun hne => absurd rfl hne⟩
    | _ =>
      have hpc := stepBinary_pc_of_not_jump hf rfl h
      exact ⟨fun hc => hpc.trans (if_pos hc), fun hne => hpc.trans (if_neg hne)⟩
  · cases (stepBinary_of_fetch_error hf).symm.trans h
    rfl
  · refine ⟨(execText_ignoresPc line).pc_eq h, fun p => ?_⟩
    rw [execText_ignoresPc line s p, h]
    rfl

end Sys2Proof.Machine

/-! SUPPORT. Memory seen through reads (20_memory.md R42, R43, R60). The key fact: an image load is a single
`Memory.writeAll` of the bytes that fit, so what it leaves in each cell follows from what `writeAll` leaves there. -/

namespace Sys2Proof.Machine

/-! ### What a cell holds after a run of bytes is written -/

/-- A run of bytes leaves every cell outside it. -/
theorem Memory.read_writeAll_outside (m : Memory) {a c : Nat} (bs : List Byte) (h : c < a ∨ a + bs.length ≤ c) :
    Memory.read (Memory.writeAll m a bs) c = Memory.read m c := by
  induction bs generalizing m a with
  | nil => rfl
  | cons b bs ih =>
    simp only [List.length_cons] at h
    calc Memory.read (Memory.writeAll (Memory.write m a b) (a + 1) bs) c
      _ = Memory.read (Memory.write m a b) c := ih _ (by omega)
      _ = Memory.read m c := Memory.read_write_other m a c b (by omega)

/-- Each cell of the run holds its byte: the writes after it go to higher cells. -/
theorem Memory.read_writeAll_inside {m : Memory} (a : Nat) {bs : List Byte} {k : Nat}
    (h : m.Pairwise fun p q => p.1 < q.1) (hk : k < bs.length) :
    Memory.read (Memory.writeAll m a bs) (a + k) = bs[k] := by
  induction bs generalizing m a k with
  | nil => cases hk
  | cons b bs ih =>
    cases k with
    | zero =>
      calc Memory.read (Memory.writeAll (Memory.write m a b) (a + 1) bs) a
        _ = Memory.read (Memory.write m a b) a := Memory.read_writeAll_outside _ bs (.inl (Nat.lt_succ_self a))
        _ = b := Memory.read_write_same m a b h
    | succ k =>
      have hrest := ih (a + 1) (Memory.pairwise_write a b h) (Nat.lt_of_succ_lt_succ hk)
      rwa [Nat.add_right_comm a 1 k] at hrest

/-! ### One checked access -/

/-- A written cell leaves what a read of any other address answers, OutOfBounds included. -/
theorem memRead_write_other {a b : Nat} (v : Byte) (s : State) (h : b ≠ a) :
    memRead b { s with mem := Memory.write s.mem a v } = memRead b s := by
  simp only [memRead, Memory.read_write_other s.mem a b v h]

/-- Settles O54: the bounds check decides which access fails, and the cell laws say what a write leaves to be read. -/
theorem readAfterWrite : Obligations.ReadAfterWrite := by
  intro a v s hwf
  refine ⟨fun ha => ⟨memRead_ok s ha, Memory.write s.mem a v, memWrite_ok v s ha, ?_, ?_⟩, fun ha => ?_⟩
  · rw [memRead_ok _ ha, Memory.read_write_same s.mem a v hwf.1]
  · exact fun b hb => memRead_write_other v s hb
  · exact ⟨memRead_error s (Nat.not_lt.mpr ha), memWrite_error v s (Nat.not_lt.mpr ha)⟩

/-! ### An image load -/

/-- A load writes the bytes that fit from `a` to the end of Memory, and fails with the first address beyond it exactly
where a byte is left over (R60). -/
theorem loadFrom_eq {a : Nat} (bs : List Byte) (s : State) (ha : a ≤ Config.numCells) :
    loadFrom a bs s =
      ({ s with mem := Memory.writeAll s.mem a (bs.take (Config.numCells - a)) },
        if a + bs.length ≤ Config.numCells then none else some (.outOfBounds Config.numCells)) := by
  induction bs generalizing a s with
  | nil => simp [loadFrom, Memory.writeAll, ha]
  | cons b bs ih =>
    by_cases hlt : a < Config.numCells
    · have hroom : Config.numCells - a = Config.numCells - (a + 1) + 1 := by omega
      have hlen : a + (b :: bs).length = a + 1 + bs.length := by simp only [List.length_cons]; omega
      simp only [loadFrom, memWrite_ok b s hlt, ih _ hlt, hroom, hlen, List.take_succ_cons, Memory.writeAll]
    · obtain rfl : a = Config.numCells := Nat.le_antisymm ha (Nat.le_of_not_lt hlt)
      simp [loadFrom, memWrite_error b s hlt, Memory.writeAll]

/-- A load of an image is one run of its first 256 bytes from address 0, and fails where there are more. -/
theorem loadImage_eq (bytes : List Byte) (s : State) :
    loadImage bytes s =
      ({ s with mem := Memory.writeAll s.mem 0 (bytes.take 256) },
        if bytes.length ≤ 256 then none else some (.outOfBounds 256)) := by
  rw [loadImage, loadFrom_eq bytes s (Nat.zero_le _), Nat.zero_add, Nat.sub_zero]

/-- Settles O57: what one run of the first 256 bytes from address 0 leaves inside it and beyond its end. -/
theorem loadImageFillsFromZero : Obligations.LoadImageFillsFromZero := by
  intro bytes s hwf
  have hfit : 0 + (bytes.take 256).length ≤ 256 := by simp
  rw [loadImage_eq]
  refine ⟨_, rfl, Memory.wf_writeAll _ hwf hfit, rfl, fun k hk hk256 => ?_, fun a ha => ?_⟩
  · have hin : k < (bytes.take 256).length := by simp [hk, hk256]
    simpa using Memory.read_writeAll_inside 0 hwf.1 hin
  · have hout : 0 + (bytes.take 256).length ≤ a := by simp [ha]
    exact Memory.read_writeAll_outside s.mem _ (.inr hout)

end Sys2Proof.Machine

/-! SUPPORT. Literals as the operand tokens hold them (30_encoding.md R93 to R96). The key fact: the number a reader
finds in a token is `some n` exactly where the token is a numeral of `n`, so each reader is that number and its range
check. -/

namespace Sys2Proof.Machine

/-! ### Digits -/

/-- The bases of R96. -/
def literalBases : List Nat := [2, 10, 16]

/-- The reader's value of each ASCII character. A finite check: 3 bases, 128 characters. -/
theorem digitOf_ascii : ∀ k < 128, ∀ base ∈ literalBases, digitOf base (Char.ofNat k) =
    if Char.ofNat k ∈ digitChars base then some (digitNumber (Char.ofNat k)) else none := by decide

theorem digitChars_ascii : ∀ base ∈ literalBases, ((digitChars base).all fun c => c.toNat < 128) = true := by decide

/-- The reader's digits are the digits of the base, at the number each stands for. -/
theorem digitOf_eq {base : Nat} (hb : base ∈ literalBases) (c : Char) :
    digitOf base c = if c ∈ digitChars base then some (digitNumber c) else none := by
  by_cases hc : c.toNat < 128
  · simpa only [Char.ofNat_toNat] using digitOf_ascii c.toNat hc base hb
  · have hmem : c ∉ digitChars base := fun h =>
      hc (of_decide_eq_true (List.all_eq_true.mp (digitChars_ascii base hb) c h))
    have h9 : ¬ c.toNat ≤ 57 := by omega
    have hf : ¬ c.toNat ≤ 102 := by omega
    have hF : ¬ c.toNat ≤ 70 := by omega
    simp [digitOf, hmem, h9, hf, hF]

/-- Reading digits succeeds exactly where all are digits of the base, with the number they continue. -/
theorem parseDigits_eq_some_iff {base : Nat} (hb : base ∈ literalBases) {acc n : Nat} {cs : List Char} :
    parseDigits base acc cs = some n ↔
      (∀ c ∈ cs, c ∈ digitChars base) ∧ cs.foldl (fun acc c => acc * base + digitNumber c) acc = n := by
  induction cs generalizing acc with
  | nil => simp [parseDigits]
  | cons c cs ih =>
    simp only [parseDigits, digitOf_eq hb]
    by_cases hc : c ∈ digitChars base
    · simp [hc, ih]
    · simp [hc]

/-- A literal is read as the number it writes. -/
theorem digitsLit_eq_some_iff {base : Nat} (hb : base ∈ literalBases) {cs : List Char} {n : Nat} :
    digitsLit base cs = some n ↔ writesNumber base cs n := by
  cases cs with
  | nil => simp [digitsLit, writesNumber]
  | cons c cs =>
    simp only [digitsLit, List.isEmpty_cons, Bool.false_eq_true, if_false, parseDigits_eq_some_iff hb, writesNumber,
      ne_eq, reduceCtorEq, not_false_eq_true, true_and]

theorem digitChar_spec : ∀ base ∈ literalBases, ∀ d < base,
    Nat.digitChar d ∈ digitChars base ∧ digitNumber (Nat.digitChar d) = d := by decide

/-- The shortest digits of a number write it. -/
theorem writesNumber_toDigits {base : Nat} (hb : base ∈ literalBases) (n : Nat) :
    writesNumber base (Nat.toDigits base n) n := by
  have hbase : 1 < base := (by decide : ∀ b ∈ literalBases, 1 < b) base hb
  induction n using Nat.strongRecOn with
  | ind n ih =>
    rw [Nat.toDigits_eq_if hbase]
    split
    next hn =>
      obtain ⟨hmem, hval⟩ := digitChar_spec base hb n hn
      simp [writesNumber, hmem, hval]
    next hn =>
      obtain ⟨-, hdigits, hvalue⟩ := ih (n / base) (Nat.div_lt_self (by omega) hbase)
      obtain ⟨hmem, hval⟩ := digitChar_spec base hb (n % base) (Nat.mod_lt n (by omega))
      refine ⟨by simp, fun c hc => ?_, ?_⟩
      · rcases List.mem_append.mp hc with hc | hc
        · exact hdigits c hc
        · exact List.mem_singleton.mp hc ▸ hmem
      · rw [List.foldl_append, hvalue, List.foldl_cons, List.foldl_nil, hval, Nat.div_add_mod']

/-! ### The three kinds of literal -/

theorem decimalLit_eq_some_iff {cs : List Char} {n : Nat} : decimalLit cs = some n ↔ writesNumber 10 cs n :=
  digitsLit_eq_some_iff (by decide)

theorem hexLit_eq_some_iff {cs : List Char} {n : Nat} :
    hexLit cs = some n ↔ ∃ ds, writesNumber 16 ds n ∧ cs = '0' :: 'x' :: ds := by
  unfold hexLit
  split
  next ds => simp [digitsLit_eq_some_iff (show 16 ∈ literalBases by decide)]
  next hcs => simpa using fun ds _ => hcs ds

theorem binaryLit_eq_some_iff {cs : List Char} {n : Nat} :
    binaryLit cs = some n ↔ ∃ ds, writesNumber 2 ds n ∧ cs = '0' :: 'b' :: ds := by
  unfold binaryLit
  split
  next ds => simp [digitsLit_eq_some_iff (show 2 ∈ literalBases by decide)]
  next hcs => simpa using fun ds _ => hcs ds

/-- `x` is no decimal digit, so no token is a literal of both bases. -/
theorem hexLit_eq_none_of_decimalLit {cs : List Char} {n : Nat} (h : decimalLit cs = some n) : hexLit cs = none := by
  unfold hexLit
  split
  · cases h
  · rfl

/-- `b` and `x` are no decimal digits and differ. -/
theorem binaryLit_eq_none_of_decimalLit {cs : List Char} {n : Nat} (h : decimalLit cs = some n) :
    binaryLit cs = none := by
  unfold binaryLit
  split
  · cases h
  · rfl

theorem binaryLit_eq_none_of_hexLit {cs : List Char} {n : Nat} (h : hexLit cs = some n) : binaryLit cs = none := by
  unfold binaryLit
  split
  · cases h
  · rfl

/-! ### The number of each kind of token -/

/-- Trying hex before decimal finds either. -/
theorem hexLit_or_decimalLit {cs : List Char} {n : Nat} :
    (hexLit cs).or (decimalLit cs) = some n ↔ decimalLit cs = some n ∨ hexLit cs = some n := by
  rw [Option.or_eq_some_iff, or_comm]
  exact or_congr_left ⟨And.right, fun h => ⟨hexLit_eq_none_of_decimalLit h, h⟩⟩

theorem anyLit_eq_or (tok : Token) : anyLit tok = (binaryLit tok).or ((hexLit tok).or (decimalLit tok)) := by
  unfold anyLit
  cases binaryLit tok <;> cases hexLit tok <;> rfl

/-- A token of any literal form has the number it writes, whichever form is tried first (R95). -/
theorem anyLit_eq_some_iff {tok : Token} {n : Nat} : anyLit tok = some n ↔ immNumeral tok n := by
  have hbinary : (decimalLit tok = some n ∨ hexLit tok = some n) → binaryLit tok = none := by
    rintro (h | h)
    · exact binaryLit_eq_none_of_decimalLit h
    · exact binaryLit_eq_none_of_hexLit h
  calc anyLit tok = some n
    _ ↔ (decimalLit tok = some n ∨ hexLit tok = some n) ∨ binaryLit tok = some n := by
      rw [anyLit_eq_or, Option.or_eq_some_iff, hexLit_or_decimalLit, or_comm]
      exact or_congr_left ⟨And.right, fun h => ⟨hbinary h, h⟩⟩
    _ ↔ immNumeral tok n := by
      simp only [decimalLit_eq_some_iff, hexLit_eq_some_iff, binaryLit_eq_some_iff, immNumeral, exists_or,
        exists_eq_right', or_assoc]

/-- What stands in brackets is tried as hex and then as decimal (R94). -/
theorem addrNumber_brackets (cs : List Char) :
    addrNumber ('[' :: (cs ++ [']'])) = (hexLit cs).or (decimalLit cs) := by
  have hends : (('[' :: (cs ++ [']'])).head? == some '[' && ('[' :: (cs ++ [']'])).getLast? == some ']') = true := by
    simp [List.getLast?_cons]
  have hinside : (('[' :: (cs ++ [']'])).drop 1).dropLast = cs := by simp
  rw [addrNumber, if_pos hends, hinside]
  cases hexLit cs <;> rfl

/-- Only a token in brackets has an address number. -/
theorem bracketed_of_addrNumber {tok : Token} {n : Nat} (h : addrNumber tok = some n) :
    ∃ cs, tok = '[' :: (cs ++ [']']) := by
  unfold addrNumber at h
  split at h
  next hends =>
    obtain ⟨hhead, hlast⟩ : tok.head? = some '[' ∧ tok.getLast? = some ']' := by simpa using hends
    obtain ⟨rest, rfl⟩ := List.head?_eq_some_iff.mp hhead
    obtain ⟨cs, hcs⟩ := List.getLast?_eq_some_iff.mp hlast
    cases cs with
    | nil => cases hcs
    | cons c cs =>
      rw [List.cons_append] at hcs
      exact ⟨cs, by rw [hcs, (List.cons.inj hcs).1]⟩
  next => cases h

/-- The number of an address token, which R94 gives two forms. -/
theorem addrNumber_eq_some_iff {tok : Token} {n : Nat} : addrNumber tok = some n ↔ addrNumeral tok n := by
  constructor
  · intro h
    obtain ⟨cs, rfl⟩ := bracketed_of_addrNumber h
    rw [addrNumber_brackets, hexLit_or_decimalLit] at h
    rcases h with hdec | hhex
    · exact ⟨cs, .inl ⟨decimalLit_eq_some_iff.mp hdec, rfl⟩⟩
    · obtain ⟨ds, hds, rfl⟩ := hexLit_eq_some_iff.mp hhex
      exact ⟨ds, .inr ⟨hds, rfl⟩⟩
  · rintro ⟨cs, ⟨hcs, rfl⟩ | ⟨hcs, rfl⟩⟩
    · rw [addrNumber_brackets, hexLit_or_decimalLit]
      exact .inl (decimalLit_eq_some_iff.mpr hcs)
    · refine (addrNumber_brackets ('0' :: 'x' :: cs)).trans (hexLit_or_decimalLit.mpr (.inr ?_))
      exact hexLit_eq_some_iff.mpr ⟨cs, hcs, rfl⟩

/-- A token is itself less one comma, or that with the comma. -/
theorem stripComma_cases (tok : Token) : tok = stripComma tok ∨ tok = stripComma tok ++ [','] := by
  unfold stripComma
  split
  next h => exact .inr (List.dropLast_append_getLast? ',' (by simpa using h)).symm
  next => exact .inl rfl

theorem stripComma_append_comma (tok : Token) : stripComma (tok ++ [',']) = tok := by simp [stripComma]

theorem stripComma_of_not_mem {tok : Token} (h : ',' ∉ tok) : stripComma tok = tok := by
  refine if_neg fun hlast => h (List.mem_of_getLast? (by simpa using hlast))

/-- A comma is no digit, so only a comma after the digits is taken off. -/
theorem stripComma_regDigits {cs : List Char} {n : Nat} (h : writesNumber 10 cs n) :
    stripComma ('R' :: cs) = 'R' :: cs := by
  obtain ⟨-, hdigits, -⟩ := h
  refine stripComma_of_not_mem fun hmem => ?_
  rcases List.mem_cons.mp hmem with hR | hcs
  · cases hR
  · exact absurd (hdigits ',' hcs) (by decide)

/-- The number of a register token: the decimal literal after its `R`, one comma aside (R93). -/
def regNumber (tok : Token) : Option Nat :=
  match stripComma tok with
  | 'R' :: n => decimalLit n
  | _ => none

theorem regNumber_eq_some_iff {tok : Token} {n : Nat} : regNumber tok = some n ↔ regNumeral tok n := by
  constructor
  · intro h
    unfold regNumber at h
    split at h
    next cs hstrip =>
      rcases stripComma_cases tok with htok | htok <;> rw [hstrip] at htok
      · exact ⟨cs, decimalLit_eq_some_iff.mp h, .inl htok⟩
      · exact ⟨cs, decimalLit_eq_some_iff.mp h, .inr htok⟩
    next => cases h
  · rintro ⟨cs, hcs, rfl | rfl⟩
    · simp only [regNumber, stripComma_regDigits hcs, decimalLit_eq_some_iff.mpr hcs]
    · simp only [regNumber, ← List.cons_append, stripComma_append_comma, decimalLit_eq_some_iff.mpr hcs]

/-! ### A reader is a number and its range check -/

section ReadNumber
variable (inRange : Nat → Prop) [DecidablePred inRange] (e : MachError)

/-- A number that is found and in range as its byte; the error otherwise. -/
def readNumber (number : Option Nat) : Except MachError Byte :=
  match number with
  | some n => if inRange n then .ok (BitVec.ofNat 8 n) else .error e
  | none => .error e

variable {inRange e} {number : Option Nat}

theorem readNumber_eq_ok_iff {v : Byte} :
    readNumber inRange e number = .ok v ↔ ∃ n, number = some n ∧ inRange n ∧ v = BitVec.ofNat 8 n := by
  cases number with
  | none => simp [readNumber]
  | some n =>
    by_cases hn : inRange n
    · simp [readNumber, hn, eq_comm]
    · simp [readNumber, hn]

theorem readNumber_eq_error (h : ¬ ∃ n, number = some n ∧ inRange n) : readNumber inRange e number = .error e := by
  cases number with
  | none => rfl
  | some n => exact if_neg fun hn => h ⟨n, rfl, hn⟩

end ReadNumber

theorem resolveReg_eq (tok : Token) :
    resolveReg tok = readNumber (· < 8) (.invalidRegister (.token (stripComma tok))) (regNumber tok) := by
  unfold resolveReg
  split
  next cs hstrip =>
    have hnumber : regNumber tok = decimalLit cs := by simp only [regNumber, hstrip]
    rw [hnumber, hstrip]
    rfl
  next hstrip =>
    have hnumber : regNumber tok = none := by
      unfold regNumber
      split
      next cs hreg => exact absurd hreg (hstrip cs)
      next => rfl
    rw [hnumber]
    rfl

theorem resolveAddr_eq (tok : Token) :
    resolveAddr tok = readNumber (· < 256) (.invalidAddress tok) (addrNumber tok) := rfl

theorem resolveImm_eq (tok : Token) :
    resolveImm tok = readNumber (· ≤ 255) (.invalidImmediate tok) (anyLit tok) := rfl

/-! ### What each reader does with a numeral -/

theorem resolveReg_of_regNumeral {tok : Token} {n : Nat} (h : regNumeral tok n) : resolveReg tok =
    if n < 8 then .ok (BitVec.ofNat 8 n) else .error (.invalidRegister (.token (stripComma tok))) := by
  rw [resolveReg_eq, regNumber_eq_some_iff.mpr h, readNumber]

theorem resolveAddr_of_addrNumeral {tok : Token} {n : Nat} (h : addrNumeral tok n) : resolveAddr tok =
    if n < 256 then .ok (BitVec.ofNat 8 n) else .error (.invalidAddress tok) := by
  rw [resolveAddr_eq, addrNumber_eq_some_iff.mpr h, readNumber]

theorem resolveImm_of_immNumeral {tok : Token} {n : Nat} (h : immNumeral tok n) : resolveImm tok =
    if n ≤ 255 then .ok (BitVec.ofNat 8 n) else .error (.invalidImmediate tok) := by
  rw [resolveImm_eq, anyLit_eq_some_iff.mpr h, readNumber]

/-! ### The shortest literals are numerals -/

section Shortest
variable (n : Nat)

theorem writesNumber_decimal : writesNumber 10 (decimal n) n := writesNumber_toDigits (by decide) n

theorem immNumeral_decimal : immNumeral (decimal n) n := ⟨_, .inl ⟨writesNumber_decimal n, rfl⟩⟩

theorem immNumeral_hex : immNumeral ('0' :: 'x' :: Nat.toDigits 16 n) n :=
  ⟨_, .inr (.inl ⟨writesNumber_toDigits (by decide) n, rfl⟩)⟩

theorem immNumeral_binary : immNumeral ('0' :: 'b' :: Nat.toDigits 2 n) n :=
  ⟨_, .inr (.inr ⟨writesNumber_toDigits (by decide) n, rfl⟩)⟩

theorem addrNumeral_decimal : addrNumeral ('[' :: (decimal n ++ [']'])) n := ⟨_, .inl ⟨writesNumber_decimal n, rfl⟩⟩

theorem addrNumeral_hex : addrNumeral ('[' :: '0' :: 'x' :: (Nat.toDigits 16 n ++ [']'])) n :=
  ⟨_, .inr ⟨writesNumber_toDigits (by decide) n, rfl⟩⟩

theorem regNumeral_decimal : regNumeral ('R' :: decimal n) n := ⟨_, writesNumber_decimal n, .inl rfl⟩

theorem regNumeral_decimal_comma : regNumeral ('R' :: (decimal n ++ [','])) n :=
  ⟨_, writesNumber_decimal n, .inr rfl⟩

end Shortest

/-- Settles O5: each reader is the number of the token and a range check, and the token has the number of the numeral it
is; the shortest literals are numerals. -/
theorem operandTokensReadTheirValue : Obligations.OperandTokensReadTheirValue := by
  refine ⟨fun tok v => ?_, fun tok v => ?_, fun tok v => ?_, fun tok => ⟨fun h => ?_, fun h => ?_, fun h => ?_⟩,
    fun n hn => ?_, fun n hn => ?_, fun n hn => ?_, fun n hn => ?_⟩
  · simp only [resolveReg_eq, readNumber_eq_ok_iff, regNumber_eq_some_iff]
  · simp only [resolveAddr_eq, readNumber_eq_ok_iff, addrNumber_eq_some_iff]
  · simp only [resolveImm_eq, readNumber_eq_ok_iff, anyLit_eq_some_iff]
  · exact (resolveReg_eq tok).trans (readNumber_eq_error (by simpa only [regNumber_eq_some_iff] using h))
  · exact (resolveAddr_eq tok).trans (readNumber_eq_error (by simpa only [addrNumber_eq_some_iff] using h))
  · exact (resolveImm_eq tok).trans (readNumber_eq_error (by simpa only [anyLit_eq_some_iff] using h))
  · have hn256 : n < 256 := Nat.lt_succ_of_le hn
    simp only [resolveImm_of_immNumeral (immNumeral_decimal n), resolveImm_of_immNumeral (immNumeral_hex n),
      resolveImm_of_immNumeral (immNumeral_binary n), resolveAddr_of_addrNumeral (addrNumeral_decimal n),
      resolveAddr_of_addrNumeral (addrNumeral_hex n), if_pos hn, if_pos hn256, and_self]
  · have hn255 : ¬ n ≤ 255 := Nat.not_le.mpr hn
    have hn256 : ¬ n < 256 := Nat.not_lt.mpr hn
    simp only [resolveImm_of_immNumeral (immNumeral_decimal n), resolveImm_of_immNumeral (immNumeral_hex n),
      resolveImm_of_immNumeral (immNumeral_binary n), resolveAddr_of_addrNumeral (addrNumeral_decimal n),
      resolveAddr_of_addrNumeral (addrNumeral_hex n), if_neg hn255, if_neg hn256, and_self]
  · simp only [resolveReg_of_regNumeral (regNumeral_decimal n), resolveReg_of_regNumeral (regNumeral_decimal_comma n),
      if_pos hn, and_self]
  · simp only [resolveReg_of_regNumeral (regNumeral_decimal n), if_neg (Nat.not_lt.mpr hn),
      stripComma_regDigits (writesNumber_decimal n)]

end Sys2Proof.Machine

/-! SUPPORT. What the text decoder rejects, said once (30_encoding.md R90, R91, R100, R102, R152, R159). The key fact:
an error of the decoder is an operand token's own error, or it is one of the rejections listed in `Rejects`, each of which
is raised whatever the operands hold. -/

namespace Sys2Proof.Machine

/-! ### The names of mnemonics and operators -/

/-- Looking for the thing a token names fails exactly where the token is none of the names. -/
theorem find?_name_eq_none_iff {α : Type} {name : α → Token} {xs : List α} {t : Token} :
    (xs.find? fun x => name x == t) = none ↔ t ∉ xs.map name := by simp

theorem mnemonicOf_eq_none_iff {t : Token} : mnemonicOf t = none ↔ t ∉ allMnemonics.map mnemonicName :=
  find?_name_eq_none_iff

/-- A token is the name of the mnemonic it stands for. -/
theorem mnemonicName_of_mnemonicOf {t : Token} {k : Mnemonic} (h : mnemonicOf t = some k) : mnemonicName k = t := by
  simpa using List.find?_some h

theorem mnemonicName_injective {j k : Mnemonic} (h : mnemonicName j = mnemonicName k) : j = k :=
  Option.some.inj <| by rw [← mnemonicOf_mnemonicName j, h, mnemonicOf_mnemonicName]

/-- The spellings of the six operators (R102). -/
def operatorNames : List Token := ["==", "!=", ">", "<", ">=", "<="].map String.toList

theorem cmpOf_eq_none_iff {t : Token} : cmpOf t = none ↔ t ∉ operatorNames := find?_name_eq_none_iff

/-! ### The shape of a token by its first character (R92) -/

theorem shapeOf_eq_reg_iff {t : Token} : shapeOf t = .reg ↔ t.head? = some 'R' := by
  unfold shapeOf
  split
  · simp
  · simp
  next hR _ => simpa [List.head?_eq_some_iff] using hR

theorem shapeOf_eq_addr_iff {t : Token} : shapeOf t = .addr ↔ t.head? = some '[' := by
  unfold shapeOf
  split
  · simp
  · simp
  next _ hB => simpa [List.head?_eq_some_iff] using hB

theorem shapeOf_eq_imm_iff {t : Token} : shapeOf t = .imm ↔ t.head? ≠ some 'R' ∧ t.head? ≠ some '[' := by
  rw [ne_eq, ne_eq, ← shapeOf_eq_reg_iff, ← shapeOf_eq_addr_iff]
  cases shapeOf t <;> decide

/-! ### The condition of an IF (R101, R102) -/

/-- The split is at the first occurrence: the keyword is not among the tokens before it. -/
theorem splitAtKeyword_not_mem {k : Token} {ts before after : List Token}
    (h : splitAtKeyword k ts = some (before, after)) : k ∉ before := by
  induction ts generalizing before after with
  | nil => cases h
  | cons t ts ih =>
    simp only [splitAtKeyword] at h
    split at h
    next =>
      cases h
      exact List.not_mem_nil
    next hk =>
      split at h
      next b a hs =>
        cases h
        exact fun hmem => (List.mem_cons.mp hmem).elim (fun hkt => hk hkt.symm) (ih hs)
      next => cases h

/-- The tokens after IF are a register-shaped token, an operator, one operand and the first THEN. -/
def ConditionShaped (args : List Token) : Prop :=
  ∃ ra op o rest, args = ra :: op :: o :: "THEN".toList :: rest ∧ (stripComma ra).head? = some 'R' ∧
    op ∈ operatorNames ∧ o ≠ "THEN".toList

theorem decodeIf_of_not_conditionShaped (line : Line) {args : List Token} (h : ¬ ConditionShaped args) :
    decodeIf line args = .error (.invalidCondition line) := by
  unfold decodeIf
  split
  next ra op o rest hsplit =>
    split
    next hra =>
      split
      next c hop =>
        have hoperator : op ∈ operatorNames := by
          by_contra hnot
          rw [cmpOf_eq_none_iff.mpr hnot] at hop
          cases hop
        have hthen : o ≠ "THEN".toList := fun ho => splitAtKeyword_not_mem hsplit (by simp [ho])
        exact absurd ⟨ra, op, o, rest, splitAtKeyword_eq hsplit, shapeOf_eq_reg_iff.mp hra, hoperator, hthen⟩ h
      next => rfl
    next => rfl
  next => rfl

/-- A well-shaped IF is split at the THEN of its shape, which is the first. -/
theorem splitAtKeyword_of_conditionShaped {ra op o : Token} (rest : List Token)
    (hra : (stripComma ra).head? = some 'R') (hop : op ∈ operatorNames) (ho : o ≠ "THEN".toList) :
    splitAtKeyword "THEN".toList (ra :: op :: o :: "THEN".toList :: rest) = some ([ra, op, o], rest) := by
  have hra' : "THEN".toList ≠ ra := by rintro rfl; exact absurd hra (by decide)
  have hop' : "THEN".toList ≠ op := by rintro rfl; exact absurd hop (by decide)
  exact splitAtKeyword_append rest (before := [ra, op, o]) <| by
    simp only [List.mem_cons, hra', hop', Ne.symm ho, List.not_mem_nil, or_self, not_false_eq_true]

/-! ### What the decoder rejects -/

/-- One operand is a register and the other an address (R159). -/
def MixedShapes (t1 t2 : Token) : Prop :=
  (shapeOf t1 = .reg ∧ shapeOf t2 = .addr) ∨ (shapeOf t1 = .addr ∧ shapeOf t2 = .reg)

/-- The decoder's rejections of a token list, operand tokens that are no literal aside. -/
inductive Rejects (line : Line) : List Token → MachError → Prop where
  | mnemonic {m : Token} {args : List Token} : mnemonicOf m = none → Rejects line (m :: args) (.unknownInstruction m)
  | count {k : Mnemonic} {n : Nat} {args : List Token} : arity k = some n → args.length + 1 ≠ n →
      Rejects line (mnemonicName k :: args) (.arityError (mnemonicName k) line)
  | separator {t1 t2 t3 : Token} : t2 ≠ ['='] → Rejects line [mnemonicName .init, t1, t2, t3] (.syntaxError line)
  | movDestination {t src : Token} : shapeOf t = .imm → Rejects line [mnemonicName .mov, t, src] (.invalidDestination t)
  | clearDestination {t : Token} : shapeOf t = .imm → Rejects line [mnemonicName .clear, t] (.invalidDestination t)
  | combination {t1 t2 : Token} : ¬ MixedShapes t1 t2 →
      Rejects line [mnemonicName .qmov, t1, t2] (.invalidOperandCombination line)
  | condition {args : List Token} : ¬ ConditionShaped args →
      Rejects line (mnemonicName .ifThen :: args) (.invalidCondition line)

/-- The errors an operand token itself can raise (R93 to R97, R108). -/
def isOperandError : MachError → Bool
  | .invalidRegister _ => true
  | .invalidAddress _ => true
  | .invalidImmediate _ => true
  | .invalidFlag _ => true
  | _ => false

theorem isOperandError_of_tokenError {tok : Token} {e : MachError} (h : tokenError tok e) :
    isOperandError e = true := by
  rcases h with rfl | rfl | rfl <;> rfl

/-- An error of this part of the decoding of `ts` is an operand token's error or a rejection of `ts`. -/
def Accounted (line : Line) (ts : List Token) {α : Type} (x : Except MachError α) : Prop :=
  ∀ e, x = .error e → isOperandError e = true ∨ Rejects line ts e

section Accounted
variable {line : Line} {ts : List Token} {α β : Type}

theorem Accounted.ok (a : α) : Accounted line ts (.ok a) := fun _ h => by cases h

theorem Accounted.reject {e : MachError} (h : Rejects line ts e) : Accounted line ts (.error e : Except MachError α) :=
  fun _ he => .inr (Except.error.inj he ▸ h)

theorem Accounted.bind {x : Except MachError α} {f : α → Except MachError β} (hx : Accounted line ts x)
    (hf : ∀ a, Accounted line ts (f a)) : Accounted line ts (x >>= f) := by
  cases x with
  | ok a => exact hf a
  | error e => exact fun e' he => hx e' (congrArg Except.error (Except.error.inj he))

theorem resolveReg_accounted (tok : Token) : Accounted line ts (resolveReg tok) :=
  fun _ h => .inl (resolveReg_error h ▸ rfl)

theorem resolveAddr_accounted (tok : Token) : Accounted line ts (resolveAddr tok) :=
  fun _ h => .inl (resolveAddr_error h ▸ rfl)

theorem resolveImm_accounted (tok : Token) : Accounted line ts (resolveImm tok) :=
  fun _ h => .inl (resolveImm_error h ▸ rfl)

theorem resolveFlag_accounted (tok : Token) : Accounted line ts (resolveFlag tok) :=
  fun _ h => .inl (resolveFlag_error h ▸ rfl)

theorem resolve_accounted (tok : Token) : Accounted line ts (resolve tok) :=
  fun _ h => .inl (isOperandError_of_tokenError (resolve_error h))

theorem resolveOut_accounted (tok : Token) : Accounted line ts (resolveOut tok) :=
  fun _ h => .inl (isOperandError_of_tokenError (resolveOut_error h))

theorem threeRegs_accounted (f : Byte → Byte → Byte → Instr) (t1 t2 t3 : Token) :
    Accounted line ts (threeRegs f t1 t2 t3) := by
  intro e h
  obtain ⟨t, rfl⟩ := threeRegs_error h
  exact .inl rfl

theorem resolvePlace_accounted {tok : Token}
    (hdest : shapeOf tok = .imm → Rejects line ts (.invalidDestination tok)) :
    Accounted line ts (resolvePlace tok) := by
  intro e h
  rcases resolvePlace_error h with ⟨himm, rfl⟩ | ⟨-, htok⟩
  · exact .inr (hdest himm)
  · exact .inl (isOperandError_of_tokenError htok)

end Accounted

/-- Shapes other than one register and one address are refused before any value is looked at. -/
theorem resolveQmov_of_not_mixedShapes (line : Line) {t1 t2 : Token} (h : ¬ MixedShapes t1 t2) :
    resolveQmov line t1 t2 = .error (.invalidOperandCombination line) := by
  unfold resolveQmov
  split
  next h1 h2 => exact absurd (.inl ⟨h1, h2⟩) h
  next h1 h2 => exact absurd (.inr ⟨h1, h2⟩) h
  all_goals rfl

theorem resolveQmov_accounted (line : Line) (t1 t2 : Token) :
    Accounted line [mnemonicName .qmov, t1, t2] (resolveQmov line t1 t2) := by
  by_cases h : MixedShapes t1 t2
  · rcases h with ⟨h1, h2⟩ | ⟨h1, h2⟩ <;> simp only [resolveQmov, h1, h2]
    · exact .bind (resolveReg_accounted t1) fun _ => .bind (resolveAddr_accounted t2) fun _ => .ok _
    · exact .bind (resolveAddr_accounted t1) fun _ => .bind (resolveReg_accounted t2) fun _ => .ok _
  · rw [resolveQmov_of_not_mixedShapes line h]
    exact .reject (.combination h)

theorem decodeIf_accounted (line : Line) (args : List Token) :
    Accounted line (mnemonicName .ifThen :: args) (decodeIf line args) := by
  by_cases h : ConditionShaped args
  · obtain ⟨ra, op, o, rest, rfl, hra, hop, ho⟩ := h
    obtain ⟨c, hc⟩ := Option.ne_none_iff_exists'.mp fun hnone => cmpOf_eq_none_iff.mp hnone hop
    simp only [decodeIf, splitAtKeyword_of_conditionShaped rest hra hop ho, shapeOf_eq_reg_iff.mpr hra, hc, if_true]
    exact .bind (resolveReg_accounted ra) fun _ => .bind (resolve_accounted o) fun _ => .ok _
  · rw [decodeIf_of_not_conditionShaped line h]
    exact .reject (.condition h)

/-- With the mnemonic's own count, the operands raise no error of the count (R91, R99). -/
theorem decodeOperands_accounted (line : Line) (m : Token) {k : Mnemonic} {args : List Token}
    (hn : arity k = some (args.length + 1)) :
    Accounted line (mnemonicName k :: args) (decodeOperands line m k args) := by
  cases k with
  | load | store =>
    obtain ⟨t1, t2, rfl⟩ := List.length_eq_two.mp (Nat.succ.inj (Option.some.inj hn)).symm
    exact .bind (resolveReg_accounted t1) fun _ => .bind (resolveAddr_accounted t2) fun _ => .ok _
  | add | and | or | nand | nor | xor =>
    obtain ⟨t1, t2, t3, rfl⟩ := List.length_eq_three.mp (Nat.succ.inj (Option.some.inj hn)).symm
    exact threeRegs_accounted _ t1 t2 t3
  | not =>
    obtain ⟨t1, t2, rfl⟩ := List.length_eq_two.mp (Nat.succ.inj (Option.some.inj hn)).symm
    exact .bind (resolveReg_accounted t1) fun _ => .bind (resolveReg_accounted t2) fun _ => .ok _
  | mov =>
    obtain ⟨t1, t2, rfl⟩ := List.length_eq_two.mp (Nat.succ.inj (Option.some.inj hn)).symm
    exact .bind (resolvePlace_accounted .movDestination) fun _ => .bind (resolve_accounted t2) fun _ => .ok _
  | qmov =>
    obtain ⟨t1, t2, rfl⟩ := List.length_eq_two.mp (Nat.succ.inj (Option.some.inj hn)).symm
    exact .bind (resolveQmov_accounted line t1 t2) fun _ => .ok _
  | init =>
    obtain ⟨t1, t2, t3, rfl⟩ := List.length_eq_three.mp (Nat.succ.inj (Option.some.inj hn)).symm
    dsimp only [decodeOperands]
    split
    next => exact .bind (resolveAddr_accounted t1) fun _ => .bind (resolveImm_accounted t3) fun _ => .ok _
    next hsep => exact .reject (.separator hsep)
  | clear =>
    obtain ⟨t1, rfl⟩ := List.length_eq_one_iff.mp (Nat.succ.inj (Option.some.inj hn)).symm
    exact .bind (resolvePlace_accounted .clearDestination) fun _ => .ok _
  | out =>
    obtain ⟨t1, rfl⟩ := List.length_eq_one_iff.mp (Nat.succ.inj (Option.some.inj hn)).symm
    exact .bind (resolveOut_accounted t1) fun _ => .ok _
  | ver =>
    obtain ⟨t1, rfl⟩ := List.length_eq_one_iff.mp (Nat.succ.inj (Option.some.inj hn)).symm
    exact .bind (resolveFlag_accounted t1) fun _ => .ok _
  | ifThen => cases hn
  | halt =>
    obtain rfl := List.length_eq_zero_iff.mp (Nat.succ.inj (Option.some.inj hn)).symm
    exact .ok _

/-- Only IF has no count of its own (R91). -/
theorem eq_ifThen_of_arity {k : Mnemonic} (h : arity k = none) : k = .ifThen := by
  cases k with
  | ifThen => rfl
  | _ => cases h

theorem decodeInstr_accounted (line : Line) (m : Token) (args : List Token) :
    Accounted line (m :: args) (decodeInstr line m args) := by
  unfold decodeInstr
  split
  next hm => exact .reject (.mnemonic hm)
  next k hm =>
    obtain rfl := mnemonicName_of_mnemonicOf hm
    split
    next hk =>
      obtain rfl := eq_ifThen_of_arity hk
      exact decodeIf_accounted line args
    next n hn =>
      split
      next hlen => exact decodeOperands_accounted line _ (hlen ▸ hn)
      next hlen => exact .reject (.count hn hlen)

theorem decodeTokens_cons_eq_error_iff {line : Line} {m : Token} {args : List Token} {e : MachError} :
    decodeTokens line (m :: args) = .error e ↔ decodeInstr line m args = .error e := by
  simp only [decodeTokens]
  cases decodeInstr line m args <;> simp

/-- WHAT THE TEXT DECODER CAN RAISE: an operand token's own error, or a rejection of the tokens. -/
theorem decodeTokens_accounted (line : Line) (ts : List Token) : Accounted line ts (decodeTokens line ts) := by
  cases ts with
  | nil => exact .ok none
  | cons m args => exact fun e h => decodeInstr_accounted line m args e (decodeTokens_cons_eq_error_iff.mp h)

/-! ### Every rejection is raised -/

/-- A mnemonic with its own count goes on to its operands. -/
theorem decodeInstr_of_arity (line : Line) {k : Mnemonic} {args : List Token} (h : arity k = some (args.length + 1)) :
    decodeInstr line (mnemonicName k) args = decodeOperands line (mnemonicName k) k args := by
  simp only [decodeInstr, mnemonicOf_mnemonicName, h, if_true]

theorem resolvePlace_of_imm {t : Token} (h : shapeOf t = .imm) : resolvePlace t = .error (.invalidDestination t) := by
  simp only [resolvePlace, h]

theorem Rejects.raised {line : Line} {ts : List Token} {e : MachError} (h : Rejects line ts e) :
    decodeTokens line ts = .error e := by
  cases h with
  | mnemonic hm => simp only [decodeTokens, decodeInstr, hm]
  | count hn hlen => simp only [decodeTokens, decodeInstr, mnemonicOf_mnemonicName, hn, if_neg hlen]
  | separator hsep =>
    rw [decodeTokens_cons_eq_error_iff, decodeInstr_of_arity line rfl]
    exact if_neg hsep
  | movDestination himm | clearDestination himm =>
    rw [decodeTokens_cons_eq_error_iff, decodeInstr_of_arity line rfl]
    simp only [decodeOperands, resolvePlace_of_imm himm]
    rfl
  | combination hmix =>
    rw [decodeTokens_cons_eq_error_iff, decodeInstr_of_arity line rfl]
    simp only [decodeOperands, resolveQmov_of_not_mixedShapes line hmix]
    rfl
  | condition hcond =>
    rw [decodeTokens_cons_eq_error_iff]
    exact decodeIf_of_not_conditionShaped line hcond

/-- An error that is no operand token's own is raised exactly where the tokens are rejected with it. -/
theorem decodeTokens_eq_error_iff {line : Line} {ts : List Token} {e : MachError} (he : isOperandError e = false) :
    decodeTokens line ts = .error e ↔ Rejects line ts e := by
  refine ⟨fun h => ?_, Rejects.raised⟩
  rcases decodeTokens_accounted line ts e h with hop | hrej
  · rw [he] at hop
    cases hop
  · exact hrej

/-- A line whose tokens are rejected takes the error and changes nothing else (R246). -/
theorem execText_of_rejects {line : Line} {e : MachError} (s : State) (h : Rejects line (tokenise line) e) :
    execText line s = .next (signal s (.error e)) := by
  simp only [execText, execTokens, runClause, h.raised, takeError]

end Sys2Proof.Machine

/-! SUPPORT. The statements about the text decoder's errors (R90, R91, R100, R239 to R242): each error but an operand
token's own is one constructor of `Rejects`. -/

namespace Sys2Proof.Machine

theorem decodeTokens_unknownInstruction_iff {line : Line} {ts : List Token} {m : Token} :
    decodeTokens line ts = .error (.unknownInstruction m) ↔ (∃ args, ts = m :: args) ∧ mnemonicOf m = none := by
  rw [decodeTokens_eq_error_iff rfl]
  constructor
  · intro h
    cases h with
    | mnemonic hm => exact ⟨⟨_, rfl⟩, hm⟩
  · rintro ⟨⟨args, rfl⟩, hm⟩
    exact .mnemonic hm

theorem decodeTokens_arityError_iff {line l : Line} {ts : List Token} {m : Token} :
    decodeTokens line ts = .error (.arityError m l) ↔
      l = line ∧ ∃ k n args, ts = mnemonicName k :: args ∧ m = mnemonicName k ∧ arity k = some n ∧
        args.length + 1 ≠ n := by
  rw [decodeTokens_eq_error_iff rfl]
  constructor
  · intro h
    cases h with
    | count hn hlen => exact ⟨rfl, _, _, _, rfl, rfl, hn, hlen⟩
  · rintro ⟨rfl, k, n, args, rfl, rfl, hn, hlen⟩
    exact .count hn hlen

/-- No ArityError where the count is the mnemonic's own or the mnemonic has none. -/
theorem decodeTokens_ne_arityError {line l : Line} {k : Mnemonic} {args : List Token} {m : Token}
    (h : ∀ n, arity k = some n → args.length + 1 = n) :
    decodeTokens line (mnemonicName k :: args) ≠ .error (.arityError m l) := by
  intro herr
  obtain ⟨-, j, n, args', hts, -, hn, hlen⟩ := decodeTokens_arityError_iff.mp herr
  obtain ⟨hname, rfl⟩ := List.cons.inj hts
  obtain rfl := mnemonicName_injective hname
  exact hlen (h n hn)

/-- Settles O7: the fixed set is what `mnemonicOf` searches, and UnknownInstruction is raised only where it finds
nothing. -/
theorem unknownMnemonicFails : Obligations.UnknownMnemonicFails := by
  refine ⟨fun line m args s hts hm => ?_, fun m hm line args h => ?_⟩
  · refine execText_of_rejects s ?_
    rw [hts]
    exact .mnemonic (mnemonicOf_eq_none_iff.mpr hm)
  · obtain ⟨-, hnone⟩ := decodeTokens_unknownInstruction_iff.mp h
    exact mnemonicOf_eq_none_iff.mp hnone hm

/-- The table of counts of R91. -/
def countTable : List (String × Nat) :=
  [("LOAD", 3), ("STORE", 3), ("NOT", 3), ("MOV", 3), ("QMOV", 3), ("ADD", 4), ("AND", 4), ("OR", 4), ("NAND", 4),
    ("NOR", 4), ("XOR", 4), ("INIT", 4), ("CLEAR", 2), ("OUT", 2), ("VER", 2), ("HALT", 1)]

theorem arity_of_mem_countTable : ∀ p ∈ countTable, ∃ k ∈ allMnemonics,
    mnemonicName k = p.1.toList ∧ arity k = some p.2 := by decide

/-- Settles O8: the table's counts are the decoder's, and ArityError is raised only where the count differs. -/
theorem wrongTokenCountFails : Obligations.WrongTokenCountFails := by
  refine ⟨fun p hp line args => ?_, fun line args m l => ?_⟩
  · obtain ⟨k, -, hname, hn⟩ := arity_of_mem_countTable p hp
    rw [← hname]
    refine ⟨fun hlen hts s => ?_, fun hlen m l => ?_⟩
    · refine execText_of_rejects s ?_
      rw [hts]
      exact .count hn hlen
    · exact decodeTokens_ne_arityError fun n hn' => hlen.trans (Option.some.inj (hn.symm.trans hn'))
  · exact decodeTokens_ne_arityError (k := .ifThen) fun n hn => by cases hn

theorem decodeTokens_syntaxError_iff {line l : Line} {ts : List Token} :
    decodeTokens line ts = .error (.syntaxError l) ↔
      l = line ∧ ∃ t1 t2 t3, ts = ["INIT".toList, t1, t2, t3] ∧ t2 ≠ ['='] := by
  rw [decodeTokens_eq_error_iff rfl]
  constructor
  · intro h
    cases h with
    | separator hsep => exact ⟨rfl, _, _, _, rfl, hsep⟩
  · rintro ⟨rfl, t1, t2, t3, rfl, hsep⟩
    exact .separator hsep

theorem decodeTokens_invalidDestination_iff {line : Line} {ts : List Token} {tok : Token} :
    decodeTokens line ts = .error (.invalidDestination tok) ↔
      (ts = ["CLEAR".toList, tok] ∨ ∃ src, ts = ["MOV".toList, tok, src]) ∧
        tok.head? ≠ some 'R' ∧ tok.head? ≠ some '[' := by
  rw [decodeTokens_eq_error_iff rfl, ← shapeOf_eq_imm_iff]
  constructor
  · intro h
    cases h with
    | movDestination himm => exact ⟨.inr ⟨_, rfl⟩, himm⟩
    | clearDestination himm => exact ⟨.inl rfl, himm⟩
  · rintro ⟨rfl | ⟨src, rfl⟩, himm⟩
    · exact .clearDestination himm
    · exact .movDestination himm

theorem decodeTokens_invalidOperandCombination_iff {line l : Line} {ts : List Token} :
    decodeTokens line ts = .error (.invalidOperandCombination l) ↔
      l = line ∧ ∃ t1 t2, ts = ["QMOV".toList, t1, t2] ∧ ¬ MixedShapes t1 t2 := by
  rw [decodeTokens_eq_error_iff rfl]
  constructor
  · intro h
    cases h with
    | combination hmix => exact ⟨rfl, _, _, rfl, hmix⟩
  · rintro ⟨rfl, t1, t2, rfl, hmix⟩
    exact .combination hmix

theorem decodeTokens_invalidCondition_iff {line l : Line} {ts : List Token} :
    decodeTokens line ts = .error (.invalidCondition l) ↔
      l = line ∧ ∃ args, ts = "IF".toList :: args ∧ ¬ ConditionShaped args := by
  rw [decodeTokens_eq_error_iff rfl]
  constructor
  · intro h
    cases h with
    | condition hcond => exact ⟨rfl, _, rfl, hcond⟩
  · rintro ⟨rfl, args, rfl, hcond⟩
    exact .condition hcond

/-- Settles O9: each of the four errors is one rejection of the decoder, read with the shapes as first characters. -/
theorem separatorAndShapesAreChecked : Obligations.SeparatorAndShapesAreChecked := by
  refine ⟨fun line t1 t2 t3 hsep => (Rejects.separator hsep).raised, fun line t1 t3 l h => ?_, fun line args hlen => ?_,
    fun line => rfl, fun line ts l => decodeTokens_syntaxError_iff,
    fun line ts tok => decodeTokens_invalidDestination_iff, fun line ts l => ?_,
    fun line ts l => decodeTokens_invalidCondition_iff⟩
  · obtain ⟨-, t1', t2, t3', hts, hsep⟩ := decodeTokens_syntaxError_iff.mp h
    obtain ⟨-, heq, -⟩ : t1 = t1' ∧ ['='] = t2 ∧ t3 = t3' := by simpa using hts
    exact hsep heq.symm
  · exact (Rejects.count (k := .init) rfl fun h => hlen (Nat.succ.inj h)).raised
  · simp only [decodeTokens_invalidOperandCombination_iff, MixedShapes, shapeOf_eq_reg_iff, shapeOf_eq_addr_iff, not_or]

end Sys2Proof.Machine

/-! SUPPORT. The bytes a binary run rejects (30_encoding.md R82, R83). The key fact: a byte outside the executed nine
stands for no opcode or for a reserved one, and the step raises InvalidOpcode of it in either case. -/

namespace Sys2Proof.Machine

/-- The opcode bytes that R82 has executed. -/
def executedBytes : List Byte := [0x01, 0x02, 0x03, 0x04, 0x05, 0x06, 0x07, 0x08, 0xFF]

/-- The opcodes that are assigned but not executed, and the instruction the decoder makes of each (R82). -/
inductive Reserved : Opcode → Instr → Prop where
  | init : Reserved .init .initReserved
  | out : Reserved .out .outReserved
  | clear : Reserved .clear .clearReserved
  | ver : Reserved .ver .verReserved

/-- An opcode whose byte is not executed is a reserved one. -/
theorem exists_reserved {o : Opcode} (h : opcodeByte o ∉ executedBytes) : ∃ i, Reserved o i := by
  cases o with
  | init => exact ⟨_, .init⟩
  | out => exact ⟨_, .out⟩
  | clear => exact ⟨_, .clear⟩
  | ver => exact ⟨_, .ver⟩
  | load | store | add | and | or | xor | not | jump | halt => exact absurd (by decide) h

/-- A reserved opcode is fetched without operand bytes, so at the top of Memory too. -/
theorem fetchInstr_of_reserved {s : State} {o : Opcode} {i : Instr} (hr : Reserved o i) (hpc : s.pc < 256)
    (ho : opcodeOf (Memory.read s.mem s.pc) = some o) : fetchInstr s = .ok i := by
  unfold fetchInstr
  rw [memRead_ok s hpc, ← opcodeByte_of_opcodeOf ho]
  cases hr <;> rfl

theorem fetchInstr_of_unassigned {s : State} (hpc : s.pc < 256) (ho : opcodeOf (Memory.read s.mem s.pc) = none) :
    fetchInstr s = .error (.invalidOpcode (Memory.read s.mem s.pc)) := by
  simp only [fetchInstr, memRead_ok s hpc, bind, Except.bind, ho]

/-- The reserved opcodes' instructions raise InvalidOpcode of their byte. -/
theorem exec_of_reserved {o : Opcode} {i : Instr} (hr : Reserved o i) (s : State) :
    exec i s = takeError (.invalidOpcode (opcodeByte o)) s := by
  cases hr <;> rfl

/-- An error makes no advance (R208). -/
theorem advancePc_takeError (i : Instr) (e : MachError) (s : State) :
    advancePc i (takeError e s) = takeError e s := rfl

/-- A byte outside the executed nine is refused by the binary step with its own value. -/
theorem stepBinary_of_rejected {s : State} (hpc : s.pc < 256) (hop : Memory.read s.mem s.pc ∉ executedBytes) :
    stepBinary s = takeError (.invalidOpcode (Memory.read s.mem s.pc)) s := by
  cases ho : opcodeOf (Memory.read s.mem s.pc) with
  | none => exact stepBinary_of_fetch_error (fetchInstr_of_unassigned hpc ho)
  | some o =>
    have hbyte := opcodeByte_of_opcodeOf ho
    obtain ⟨i, hr⟩ := exists_reserved (hbyte ▸ hop)
    rw [stepBinary_of_fetch (fetchInstr_of_reserved hr hpc ho), exec_of_reserved hr, hbyte, advancePc_takeError]

/-- Settles O14: the rejected byte's error stops the run. -/
theorem rejectedOpcodesStopTheRun : Obligations.RejectedOpcodesStopTheRun := by
  intro s hrun hpc hop
  rw [step_binary hrun, stepBinary_of_rejected hpc fun hmem => hop _ hmem rfl, takeError, signal, hrun,
    settleRun_running_error]

end Sys2Proof.Machine

/-! SUPPORT. The Logic Unit bit by bit (40_alu_logic.md R120 to R123). NAND and NOR are defined as the NOT of AND and OR
(R124, R125), so their bits follow from these. -/

namespace Sys2Proof.Machine

@[simp] theorem getLsbD_and8 (a b : Byte) (k : Nat) : (and8 a b).getLsbD k = (a.getLsbD k && b.getLsbD k) :=
  BitVec.getLsbD_and

@[simp] theorem getLsbD_or8 (a b : Byte) (k : Nat) : (or8 a b).getLsbD k = (a.getLsbD k || b.getLsbD k) :=
  BitVec.getLsbD_or

/-- R122 in its own words: the bit is 1 exactly when the operand bits differ. -/
@[simp] theorem getLsbD_xor8 (a b : Byte) (k : Nat) :
    (xor8 a b).getLsbD k = decide (a.getLsbD k ≠ b.getLsbD k) := by
  rw [xor8, BitVec.getLsbD_xor]
  cases a.getLsbD k <;> cases b.getLsbD k <;> rfl

/-- The bits above bit 7 do not exist in the result (R123), so the bound is needed. -/
@[simp] theorem getLsbD_not8 (a : Byte) {k : Nat} (hk : k < 8) : (not8 a).getLsbD k = !a.getLsbD k := by
  simp [not8, hk]

@[simp] theorem toNat_not8 (a : Byte) : (not8 a).toNat = 255 - a.toNat :=
  BitVec.toNat_not

/-- Settles O60: each function's bit lemma, the numeric NOT, and the definitions of NAND and NOR. -/
theorem logicUnitFunctions : Obligations.LogicUnitFunctions := by
  intro a b
  refine ⟨fun k hk => ?bits, toNat_not8 a, rfl, rfl⟩
  case bits => exact ⟨getLsbD_and8 a b k, getLsbD_or8 a b k, getLsbD_xor8 a b k, getLsbD_not8 a hk⟩

end Sys2Proof.Machine

/-! SUPPORT. JUMP as a step of a binary run (43_control_flow.md R206, R208). The key fact: a fetch is its operand bytes,
which the opcode's own row makes an instruction of, or the error that reading them raises. -/

namespace Sys2Proof.Machine

/-! ### A fetch by its opcode -/

section FetchByOpcode
variable {s : State} {o : Opcode} (hpc : s.pc < Config.numCells) (hop : Memory.read s.mem s.pc = opcodeByte o)
include hpc hop

/-- Operand bytes that can be read make the instruction of the opcode's row (R208). -/
theorem fetchInstr_of_operands {bs : List Byte} {i : Instr} (hbs : fetchBytes (operandCount o) (s.pc + 1) s = .ok bs)
    (hi : buildInstr o bs = some i) : fetchInstr s = .ok i := by
  simp only [fetchInstr, memRead_ok s hpc, hop, bind, Except.bind, opcodeOf_opcodeByte, hbs, decode, hi]

/-- An operand byte that cannot be read is the fetch's error (R209). -/
theorem fetchInstr_of_operand_error {e : MachError} (hbs : fetchBytes (operandCount o) (s.pc + 1) s = .error e) :
    fetchInstr s = .error e := by
  simp only [fetchInstr, memRead_ok s hpc, hop, bind, Except.bind, opcodeOf_opcodeByte, hbs]

end FetchByOpcode

theorem fetchBytes_one_ok {a : Nat} (s : State) (h : a < Config.numCells) :
    fetchBytes 1 a s = .ok [Memory.read s.mem a] := by
  rw [fetchBytes, memRead_ok s h]
  rfl

theorem fetchBytes_one_error {a : Nat} (s : State) (h : ¬ a < Config.numCells) :
    fetchBytes 1 a s = .error (.outOfBounds a) := by
  rw [fetchBytes, memRead_error s h]
  rfl

/-! ### JUMP -/

/-- An instruction that continues changes nothing more than its effect (R28). -/
theorem completeWith_eq (s : State) : completeWith s = .next { s with outcome := .cont } := by
  rw [completeWith, signal, settleRun_cont]

theorem exec_jump (t : Byte) (s : State) : exec (.jump t) s = .next { s with pc := t.toNat, outcome := .cont } :=
  completeWith_eq _

/-- Below the last cell a JUMP is fetched with the byte after its opcode as its target. -/
theorem fetchInstr_jump {s : State} (hpc : s.pc < 255) (hop : Memory.read s.mem s.pc = opcodeByte .jump) :
    fetchInstr s = .ok (.jump (Memory.read s.mem (s.pc + 1))) :=
  fetchInstr_of_operands (Nat.lt_succ_of_lt hpc) hop (fetchBytes_one_ok s (Nat.succ_lt_succ hpc)) rfl

/-- At the last cell the operand byte of a JUMP lies outside Memory. -/
theorem fetchInstr_jump_at_last_cell {s : State} (hpc : s.pc = 255) (hop : Memory.read s.mem 255 = opcodeByte .jump) :
    fetchInstr s = .error (.outOfBounds 256) := by
  have hbs : fetchBytes (operandCount .jump) (s.pc + 1) s = .error (.outOfBounds 256) := by
    rw [hpc]
    exact fetchBytes_one_error s (Nat.lt_irrefl 256)
  exact fetchInstr_of_operand_error (hpc ▸ by decide) (hpc ▸ hop) hbs

/-- Settles O30: JUMP's own effect; a step is that effect with no advance where its operand byte can be fetched and the
fetch's error where it cannot; and the text encoder has no row for it. -/
theorem jumpSetsTheProgramCounter : Obligations.JumpSetsTheProgramCounter := by
  refine ⟨fun s t => exec_jump t s, fun s hrun hpc hop => ?_, fun s hrun hpc hop => ?_, fun t => rfl⟩
  · rw [step_binary hrun, stepBinary_jump (fetchInstr_jump hpc hop), completeWith_eq]
  · rw [step_binary hrun, stepBinary_of_fetch_error (fetchInstr_jump_at_last_cell hpc hop), takeError, signal, hrun,
      settleRun_running_error]

end Sys2Proof.Machine

/-! SUPPORT. The comparisons and the clause that an IF selects (43_control_flow.md R200 to R204, R218). The key fact: an
IF is the clause its condition selects, run by `exec` itself, so the levels of nesting play no part. -/

namespace Sys2Proof.Machine

/-! ### The six comparisons on unsigned values (R202) -/

section Comparisons
variable (l r : Byte)

@[simp] theorem compareBytes_eq : compareBytes .eq l r = true ↔ l.toNat = r.toNat := decide_eq_true_iff
@[simp] theorem compareBytes_ne : compareBytes .ne l r = true ↔ l.toNat ≠ r.toNat := decide_eq_true_iff
@[simp] theorem compareBytes_gt : compareBytes .gt l r = true ↔ r.toNat < l.toNat := decide_eq_true_iff
@[simp] theorem compareBytes_lt : compareBytes .lt l r = true ↔ l.toNat < r.toNat := decide_eq_true_iff
@[simp] theorem compareBytes_ge : compareBytes .ge l r = true ↔ r.toNat ≤ l.toNat := decide_eq_true_iff
@[simp] theorem compareBytes_le : compareBytes .le l r = true ↔ l.toNat ≤ r.toNat := decide_eq_true_iff

end Comparisons

/-- Settles O34: one equivalence per operator of R202's table. -/
theorem comparisonsAreUnsigned : Obligations.ComparisonsAreUnsigned := fun l r =>
  ⟨compareBytes_eq l r, compareBytes_ne l r, compareBytes_gt l r, compareBytes_lt l r, compareBytes_ge l r,
    compareBytes_le l r⟩

/-! ### The clause an IF selects -/

/-- An IF selects a clause and runs it as an instruction of its own: a clause's nesting never exceeds its tokens. -/
theorem exec_ifThen (line : Line) (a : Byte) (op : CmpOp) (o : Source) (th : List Token) (el : Option (List Token))
    (s : State) : exec (.ifThen line a op o th el) s = selectClause exec line a op o th el s := by
  rw [exec, execIf_eq]
  exact selectClause_congr (n := th.length + (el.getD []).length)
    (fun i t hi => execNested_eq_exec t (Nat.le_of_lt hi)) line a op o s (Nat.le_refl _)

theorem condHolds_eq {a : Byte} (op : CmpOp) {o : Source} {s : State} {v : Byte} (ha : a.toNat < 8)
    (hv : sourceValue o s = .ok v) : condHolds a op o s = .ok (compareBytes op s.x[a.toNat] v) := by
  rw [condHolds, regIndex_ok ha, hv]
  rfl

section SelectedClause
variable {line : Line} {a : Byte} {op : CmpOp} {o : Source} {th : List Token} {s : State} {v : Byte}
  (ha : a.toNat < 8) (hv : sourceValue o s = .ok v)
include ha hv

theorem exec_ifThen_of_true {el : Option (List Token)} (hc : compareBytes op s.x[a.toNat] v = true) :
    exec (.ifThen line a op o th el) s = execTokens line th s := by
  simp only [exec_ifThen, selectClause, condHolds_eq op ha hv, hc, execTokens]

theorem exec_ifThen_of_false {ts : List Token} (hc : compareBytes op s.x[a.toNat] v = false) :
    exec (.ifThen line a op o th (some ts)) s = execTokens line ts s := by
  simp only [exec_ifThen, selectClause, condHolds_eq op ha hv, hc, execTokens]

end SelectedClause

theorem execTokens_of_decode {line : Line} {toks : List Token} {i : Instr} (s : State)
    (h : decodeTokens line toks = .ok (some i)) : execTokens line toks s = exec i s := by
  rw [execTokens, runClause, h]

/-! ### ADD and CLEAR of registers that exist -/

theorem threeRegOp_eq (f : Byte → Byte → Byte) {a b c : Byte} (s : State) (ha : a.toNat < 8) (hb : b.toNat < 8)
    (hc : c.toNat < 8) : threeRegOp f a b c s =
      .next { s with x := s.x.set c.toNat (f s.x[a.toNat] s.x[b.toNat]), outcome := .cont } := by
  rw [threeRegOp, regIndex_ok ha, regIndex_ok hb, regIndex_ok hc]
  exact completeWith_eq _

theorem execClear_reg {r : Byte} (s : State) (hr : r.toNat < 8) :
    execClear (.reg r) s = .next { s with x := s.x.set r.toNat 0, outcome := .cont } := by
  rw [execClear, writePlace, regIndex_ok hr]
  exact completeWith_eq _

/-- The exact sum, narrowed, is the sum modulo 256 (R126). -/
theorem add8_eq_mod (a b : Byte) : add8 a b = BitVec.ofNat 8 ((a.toNat + b.toNat) % 256) :=
  BitVec.eq_of_toNat_eq (Nat.mod_mod _ 256).symm

/-! ### The worked example (R218) -/

/-- The example's instruction, as read from any line. -/
def workedIf (line : Line) : Instr :=
  .ifThen line 0 .gt (.imm 5) (["ADD", "R0", "R1", "R2"].map String.toList)
    (some (["CLEAR", "R2"].map String.toList))

/-- The example's line. -/
def workedLine : Line := "IF R0 > 5 THEN ADD R0 R1 R2 ELSE CLEAR R2".toList

theorem exec_workedIf_of_gt (line : Line) {s : State} (h : 5 < s.x[0].toNat) : exec (workedIf line) s =
    .next { s with x := s.x.set 2 (BitVec.ofNat 8 ((s.x[0].toNat + s.x[1].toNat) % 256)), outcome := .cont } := by
  have hc : compareBytes .gt s.x[0] 5 = true := (compareBytes_gt _ _).mpr h
  have hdecode : decodeTokens line (["ADD", "R0", "R1", "R2"].map String.toList) = .ok (some (.add 0 1 2)) := rfl
  calc exec (workedIf line) s
    _ = execTokens line (["ADD", "R0", "R1", "R2"].map String.toList) s := exec_ifThen_of_true (by decide) rfl hc
    _ = threeRegOp add8 0 1 2 s := execTokens_of_decode s hdecode
    _ = .next { s with x := s.x.set 2 (add8 s.x[0] s.x[1]), outcome := .cont } :=
      threeRegOp_eq add8 s (by decide) (by decide) (by decide)
    _ = _ := by rw [add8_eq_mod]

theorem exec_workedIf_of_le (line : Line) {s : State} (h : s.x[0].toNat ≤ 5) : exec (workedIf line) s =
    .next { s with x := s.x.set 2 0, outcome := .cont } := by
  have hc : compareBytes .gt s.x[0] 5 = false :=
    Bool.eq_false_iff.mpr fun hgt => Nat.not_lt.mpr h ((compareBytes_gt _ _).mp hgt)
  have hdecode : decodeTokens line (["CLEAR", "R2"].map String.toList) = .ok (some (.clear (.reg 2))) := rfl
  calc exec (workedIf line) s
    _ = execTokens line (["CLEAR", "R2"].map String.toList) s := exec_ifThen_of_false (by decide) rfl hc
    _ = execClear (.reg 2) s := execTokens_of_decode s hdecode
    _ = .next { s with x := s.x.set 2 0, outcome := .cont } := execClear_reg s (by decide)

/-- The example's line is its instruction. -/
theorem execText_workedLine (s : State) : execText workedLine s = exec (workedIf workedLine) s :=
  execTokens_of_decode s (by decide)

/-- Settles O33: the clause that R0 > 5 selects is run, and the line decodes to the instruction. -/
theorem ifWorkedExample : Obligations.IfWorkedExample := by
  refine fun line s => ⟨fun h => ⟨_, rfl, exec_workedIf_of_gt line h, ?_⟩,
    fun h => ⟨_, rfl, exec_workedIf_of_le line h, ?_⟩⟩
  · exact (execText_workedLine s).trans (exec_workedIf_of_gt workedLine h)
  · exact (execText_workedLine s).trans (exec_workedIf_of_le workedLine h)

end Sys2Proof.Machine

/-! SUPPORT. Errors are precise (60_exceptions.md R246). The key fact: whatever ends in an error, an instruction, a line
or a binary step, has left the state it started in with that error signalled and nothing else done. -/

namespace Sys2Proof.Machine

/-- Of the ends an instruction has, only the taken error carries an error outcome. -/
theorem Answered.eq_signal_error {s t : State} {e : MachError} (h : Answered s t) (he : t.outcome = .error e) :
    t = signal s (.error e) := by
  cases h with
  | cont hu => cases he
  | halt => cases he
  | error e' =>
    obtain rfl := StepOutcome.error.inj he
    rfl

/-- A binary step that ends in an error, of the fetch or of the instruction, makes no advance (R208). -/
theorem stepBinary_eq_signal_error {s t : State} {e : MachError} (h : stepBinary s = .next t)
    (he : t.outcome = .error e) : t = signal s (.error e) := by
  obtain ⟨e', -, rfl⟩ | ⟨i, u, -, hu, rfl | ⟨hcont, -, rfl⟩⟩ := stepBinary_cases h
  · obtain rfl := StepOutcome.error.inj he
    rfl
  · exact (exec_answered hu).eq_signal_error he
  · cases hcont.symm.trans he

/-- Outside a run no outcome changes the run status (R28). -/
theorem settleRun_of_notRunning {s : State} (h : notRunning s = true) (o : StepOutcome) :
    settleRun s.run o = s.run := by
  cases hr : s.run with
  | running l =>
    rw [notRunning, hr] at h
    cases h
  | idle | halted | stopped e => rfl

/-- Settles O41: each of the three leaves the starting state with the error signalled, which changes the run status of a
run and nothing else but the outcome. -/
theorem errorsArePrecise : Obligations.ErrorsArePrecise := by
  intro s t e he h
  have ht : t = signal s (.error e) := by
    obtain ⟨i, hi⟩ | ⟨line, hline⟩ | hstep := h
    · exact (exec_answered hi).eq_signal_error he
    · exact (execText_answered hline).eq_signal_error he
    · exact stepBinary_eq_signal_error hstep he
  subst ht
  refine ⟨⟨rfl, rfl, rfl, rfl⟩, rfl, fun l hl => ?_, fun hn => settleRun_of_notRunning hn _⟩
  rw [signal_run, hl, settleRun_running_error]

end Sys2Proof.Machine

/-! SUPPORT. What a reset leaves (10_state.md R35, 70_reset_and_hazards.md R270). The reset memory lists no cell, and a
cell that is not listed reads as the reset value. -/

namespace Sys2Proof.Machine

/-- Every register of the reset state holds the reset value (R35). -/
@[simp] theorem State.reset_x_getElem {k : Nat} (hk : k < 8) : State.reset.x[k] = Config.resetReg :=
  Vector.getElem_replicate hk

/-- Every cell of the reset state reads as the reset value (R35). -/
theorem memRead_reset {a : Nat} (ha : a < Config.numCells) : memRead a State.reset = .ok Config.resetMem :=
  (memRead_ok State.reset ha).trans (congrArg Except.ok (Memory.read_nil a))

/-- Settles O58: registers and cells by their reset values, the single fields as `State.reset` gives them. -/
theorem resetState : Obligations.ResetState :=
  ⟨fun _ => rfl, fun _ hk => State.reset_x_getElem hk, fun _ ha => memRead_reset ha, rfl, rfl, rfl, rfl⟩

end Sys2Proof.Machine

/-! SUPPORT. A non-IF instruction as one check and one total effect (60_exceptions.md R246). The key fact: every such
instruction but OUT of an address raises InvalidRegister of the first register byte that names no register, in the order
of `regOperands`, or else makes its whole effect, which cannot fail, for an address operand is a byte (R79).
`exec_eq_result` ties this reading to `exec`. -/

namespace Sys2Proof.Machine

/-! ### The effect of an instruction whose registers exist -/

/-- The value of the register a byte names; 0 where it names none. -/
def regValue (s : State) (b : Byte) : Byte := s.x[b.toNat]?.getD 0

/-- The state with the register a byte names written; the state itself where it names none. -/
def putReg (s : State) (b v : Byte) : State := { s with x := s.x.setIfInBounds b.toNat v }

/-- The state with a cell written. -/
def putCell (s : State) (a v : Byte) : State := { s with mem := Memory.write s.mem a.toNat v }

/-- The value of a source whose register exists (R152, R201). -/
def sourceByte (s : State) : Source → Byte
  | .reg r => regValue s r
  | .mem a => Memory.read s.mem a.toNat
  | .imm v => v

/-- The state with a destination whose register exists written (R153 to R158, R165, R166). -/
def putPlace (s : State) : Place → Byte → State
  | .reg r, v => putReg s r v
  | .mem a, v => putCell s a v

/-- What an instruction whose registers exist makes of the state, its outcome aside; nothing for the forms that raise or
are refused, nor for IF, whose clause decides. QMOV's first operand is its source, as in `Config.qmovOrder`. -/
def effect (s : State) : Instr → State
  | .load d m => putReg s d (Memory.read s.mem m.toNat)
  | .store r m => putCell s m (regValue s r)
  | .add a b c => putReg s c (add8 (regValue s a) (regValue s b))
  | .and a b c => putReg s c (and8 (regValue s a) (regValue s b))
  | .or a b c => putReg s c (or8 (regValue s a) (regValue s b))
  | .xor a b c => putReg s c (xor8 (regValue s a) (regValue s b))
  | .nand a b c => putReg s c (nand8 (regValue s a) (regValue s b))
  | .nor a b c => putReg s c (nor8 (regValue s a) (regValue s b))
  | .not a b => putReg s b (not8 (regValue s a))
  | .jump t => { s with pc := t.toNat }
  | .mov dst src => putPlace s dst (sourceByte s src)
  | .qmov (.regAddr r a) => putReg (putCell s a (regValue s r)) r 0
  | .qmov (.addrReg a r) => putCell (putReg s r (Memory.read s.mem a.toNat)) a 0
  | .init a v => putCell s a v
  | .out (.reg r) => emitOut s (regValue s r)
  | .out (.imm v) => emitOut s v
  | .clear p => putPlace s p 0
  | .ver flag => { s with verbose := flag }
  | .out (.addrShaped _) | .initReserved | .outReserved | .clearReserved | .verReserved | .halt
  | .ifThen _ _ _ _ _ _ => s

/-- The outcome of an instruction whose registers exist (R13, R82, R185). -/
def ending : Instr → StepOutcome
  | .halt => .halt
  | .initReserved => .error (.invalidOpcode (opcodeByte .init))
  | .outReserved => .error (.invalidOpcode (opcodeByte .out))
  | .clearReserved => .error (.invalidOpcode (opcodeByte .clear))
  | .verReserved => .error (.invalidOpcode (opcodeByte .ver))
  | _ => .cont

section Registers
variable {s : State} {b : Byte} (h : b.toNat < 8)
include h

theorem regValue_eq : regValue s b = s.x[b.toNat] := by simp [regValue, h]

theorem putReg_eq (v : Byte) : putReg s b v = { s with x := s.x.set b.toNat v } := by
  have hx : s.x.setIfInBounds b.toNat v = s.x.set b.toNat v := Vector.ext fun k hk => by
    rw [Vector.getElem_setIfInBounds, Vector.getElem_set]
  rw [putReg, hx]

theorem getReg_eq_regValue : getReg s ⟨b.toNat, h⟩ = regValue s b := (regValue_eq h).symm

theorem setReg_eq_putReg (v : Byte) : setReg s ⟨b.toNat, h⟩ v = putReg s b v := (putReg_eq h v).symm

end Registers

/-! ### Computations that check register bytes and nothing else -/

/-- The byte names no register. -/
def noReg (b : Byte) : Bool := !decide (b.toNat < 8)

/-- The first register byte of an instruction, in the order of the checks, that names no register (R78, R98). -/
def badRegister (i : Instr) : Option Byte := (regOperands i).find? noReg

/-- The result of a computation that checks these register bytes in order and then cannot fail. -/
def checked {α : Type} (bs : List Byte) (a : α) : Except MachError α :=
  match bs.find? noReg with
  | some b => .error (.invalidRegister (.byte b))
  | none => .ok a

section Checked
variable {α β : Type} {b : Byte} {bs cs : List Byte} {a : α} {u : β}

theorem noReg_of_lt (h : b.toNat < 8) : noReg b = false := by simp [noReg, h]

theorem noReg_of_not_lt (h : ¬ b.toNat < 8) : noReg b = true := by simp [noReg, h]

/-- A register byte is checked, and then the rest, with the register it names. -/
theorem checked_regIndex {f : Fin 8 → Except MachError β} (h : ∀ hb : b.toNat < 8, f ⟨b.toNat, hb⟩ = checked bs u) :
    regIndex b >>= f = checked (b :: bs) u := by
  by_cases hb : b.toNat < 8
  · rw [regIndex_ok hb, checked, List.find?_cons, noReg_of_lt hb]
    exact h hb
  · rw [regIndex_error hb, checked, List.find?_cons, noReg_of_not_lt hb]
    rfl

/-- One checked computation after another. -/
theorem checked_bind {x : Except MachError α} {f : α → Except MachError β} (hx : x = checked bs a)
    (hf : bs.find? noReg = none → f a = checked cs u) : x >>= f = checked (bs ++ cs) u := by
  rw [hx, checked, checked, List.find?_append]
  cases hbs : bs.find? noReg with
  | none => exact hf hbs
  | some b => rfl

end Checked

/-- The register bytes of a source (R152, R201). -/
def sourceRegs : Source → List Byte
  | .reg r => [r]
  | .mem _ | .imm _ => []

/-- The register bytes of a destination (R152, R164). -/
def placeRegs : Place → List Byte
  | .reg r => [r]
  | .mem _ => []

theorem sourceValue_checked (o : Source) (s : State) : sourceValue o s = checked (sourceRegs o) (sourceByte s o) := by
  cases o with
  | reg r => exact checked_regIndex fun h => congrArg Except.ok (getReg_eq_regValue h)
  | mem a => exact memRead_byte a s
  | imm v => rfl

theorem checkPlace_checked (p : Place) : checkPlace p = checked (placeRegs p) () := by
  cases p with
  | reg r => exact checked_regIndex fun _ => rfl
  | mem a => rfl

theorem writePlace_checked (p : Place) (v : Byte) (s : State) :
    writePlace p v s = checked (placeRegs p) (putPlace s p v) := by
  cases p with
  | reg r => exact checked_regIndex fun h => congrArg Except.ok (setReg_eq_putReg h v)
  | mem a => exact memWrite_byte a v s

/-- The registers of an IF's condition are checked and nothing else (R200). -/
theorem condHolds_checked (a : Byte) (op : CmpOp) (o : Source) (s : State) : condHolds a op o s =
    checked (a :: sourceRegs o) (compareBytes op (regValue s a) (sourceByte s o)) :=
  checked_regIndex fun h => by
    rw [getReg_eq_regValue h, sourceValue_checked]
    cases hr : (sourceRegs o).find? noReg <;> simp only [checked, hr] <;> rfl

/-! ### Each instruction is its check and its effect -/

/-- An instruction given as one computation that checks its registers and makes its effect. -/
def ChecksThenActs (i : Instr) : Prop := ∀ s, exec i s = commit s (checked (regOperands i) (effect s i))

theorem threeRegOp_checked (f : Byte → Byte → Byte) (a b c : Byte) (s : State) : threeRegOp f a b c s =
    commit s (checked [a, b, c] (putReg s c (f (regValue s a) (regValue s b)))) := by
  refine congrArg (commit s) (checked_regIndex fun ha => checked_regIndex fun hb => checked_regIndex fun hc => ?_)
  rw [getReg_eq_regValue ha, getReg_eq_regValue hb, setReg_eq_putReg hc]
  rfl

theorem execNot_checked (a b : Byte) : ChecksThenActs (.not a b) := by
  refine fun s => congrArg (commit s) (checked_regIndex fun ha => checked_regIndex fun hb => ?_)
  rw [getReg_eq_regValue ha, setReg_eq_putReg hb]
  rfl

theorem execLoad_checked (d m : Byte) : ChecksThenActs (.load d m) := by
  refine fun s => congrArg (commit s) (checked_regIndex fun hd => ?_)
  rw [memRead_byte]
  exact congrArg Except.ok (setReg_eq_putReg hd _)

theorem execStore_checked (r m : Byte) : ChecksThenActs (.store r m) := by
  refine fun s => congrArg (commit s) (checked_regIndex fun hr => ?_)
  rw [getReg_eq_regValue hr, memWrite_byte]
  rfl

/-- The destination of a MOV is checked a second time where it is written, and then exists. -/
theorem execMov_checked (dst : Place) (src : Source) : ChecksThenActs (.mov dst src) := by
  intro s
  have hregs : regOperands (.mov dst src) = placeRegs dst ++ (sourceRegs src ++ []) := by
    cases dst <;> cases src <;> rfl
  rw [hregs]
  refine congrArg (commit s) (checked_bind (checkPlace_checked dst) fun hdst =>
    checked_bind (sourceValue_checked src s) fun _ => ?_)
  rw [writePlace_checked, checked, hdst]
  rfl

theorem execQmov_checked (f : QmovForm) : ChecksThenActs (.qmov f) := by
  intro s
  cases f with
  | regAddr r a =>
    refine congrArg (commit s) (checked_regIndex fun hr => ?_)
    rw [getReg_eq_regValue hr, memWrite_byte]
    exact congrArg Except.ok (setReg_eq_putReg hr 0)
  | addrReg a r =>
    refine congrArg (commit s) (checked_regIndex fun hr => ?_)
    rw [memRead_byte]
    exact (memWrite_byte a 0 _).trans (by rw [setReg_eq_putReg hr]; rfl)

theorem execOut_reg_checked (r : Byte) : ChecksThenActs (.out (.reg r)) := by
  refine fun s => congrArg (commit s) (checked_regIndex fun hr => ?_)
  rw [getReg_eq_regValue hr]
  rfl

theorem execClear_checked (p : Place) : ChecksThenActs (.clear p) := by
  intro s
  have hregs : regOperands (.clear p) = placeRegs p := by cases p <;> rfl
  rw [hregs]
  exact congrArg (commit s) (writePlace_checked p 0 s)

/-- The state an instruction that is executed leaves: InvalidRegister of its first bad register byte is raised, or its
effect is made and it ends with its outcome. -/
def result (s : State) (i : Instr) : State :=
  match badRegister i with
  | some b => signal s (.error (.invalidRegister (.byte b)))
  | none => signal (effect s i) (ending i)

theorem result_of_bad {s : State} {i : Instr} {b : Byte} (h : badRegister i = some b) :
    result s i = signal s (.error (.invalidRegister (.byte b))) := by rw [result, h]

theorem result_of_good {s : State} {i : Instr} (h : badRegister i = none) :
    result s i = signal (effect s i) (ending i) := by rw [result, h]

theorem ChecksThenActs.exec_eq {i : Instr} (h : ChecksThenActs i) (hend : ending i = .cont) (s : State) :
    exec i s = .next (result s i) := by
  rw [h s, result, hend, checked, badRegister]
  cases (regOperands i).find? noReg <;> rfl

/-- The instructions with an effect of their own: all but IF and OUT of an address. -/
def hasEffect : Instr → Bool
  | .out (.addrShaped _) | .ifThen _ _ _ _ _ _ => false
  | _ => true

/-- WHAT AN INSTRUCTION WITH AN EFFECT OF ITS OWN DOES. -/
theorem exec_eq_result {i : Instr} (hi : hasEffect i = true) (s : State) : exec i s = .next (result s i) := by
  cases i with
  | load d m => exact (execLoad_checked d m).exec_eq rfl s
  | store r m => exact (execStore_checked r m).exec_eq rfl s
  | add a b c => exact ChecksThenActs.exec_eq (i := .add a b c) (threeRegOp_checked add8 a b c) rfl s
  | and a b c => exact ChecksThenActs.exec_eq (i := .and a b c) (threeRegOp_checked and8 a b c) rfl s
  | or a b c => exact ChecksThenActs.exec_eq (i := .or a b c) (threeRegOp_checked or8 a b c) rfl s
  | xor a b c => exact ChecksThenActs.exec_eq (i := .xor a b c) (threeRegOp_checked xor8 a b c) rfl s
  | nand a b c => exact ChecksThenActs.exec_eq (i := .nand a b c) (threeRegOp_checked nand8 a b c) rfl s
  | nor a b c => exact ChecksThenActs.exec_eq (i := .nor a b c) (threeRegOp_checked nor8 a b c) rfl s
  | not a b => exact (execNot_checked a b).exec_eq rfl s
  | mov dst src => exact (execMov_checked dst src).exec_eq rfl s
  | qmov f => exact (execQmov_checked f).exec_eq rfl s
  | init a v => exact congrArg (commit s) (memWrite_byte a v s)
  | clear p => exact (execClear_checked p).exec_eq rfl s
  | out t =>
    cases t with
    | reg r => exact (execOut_reg_checked r).exec_eq rfl s
    | imm v => rfl
    | addrShaped tok => cases hi
  | jump t | ver flag | halt | initReserved | outReserved | clearReserved | verReserved => rfl
  | ifThen line a op o th el => cases hi

theorem hasEffect_of_ne {i : Instr} (hi : i.carriedLine = none) (hout : ∀ tok, i ≠ .out (.addrShaped tok)) :
    hasEffect i = true := by
  cases i with
  | out t =>
    cases t with
    | reg r | imm v => rfl
    | addrShaped tok => exact absurd rfl (hout tok)
  | ifThen line a op o th el => cases hi
  | _ => rfl

/-- WHAT AN INSTRUCTION OTHER THAN IF CAN ANSWER: the state with its first bad register byte's error, or its effect. -/
theorem exec_next_cases {i : Instr} {s t : State} (hi : i.carriedLine = none) (h : exec i s = .next t) :
    (∃ b, badRegister i = some b ∧ t = signal s (.error (.invalidRegister (.byte b)))) ∨
      t = signal (effect s i) (ending i) := by
  have hout : ∀ tok, i ≠ .out (.addrShaped tok) := by
    rintro tok rfl
    cases h
  obtain rfl := Host.Outcome.next.inj ((exec_eq_result (hasEffect_of_ne hi hout) s).symm.trans h)
  cases hb : badRegister i with
  | some b => exact .inl ⟨b, rfl, result_of_bad hb⟩
  | none => exact .inr (result_of_good hb)

theorem badRegister_eq_none_iff {i : Instr} : badRegister i = none ↔ ∀ b ∈ regOperands i, b.toNat < 8 := by
  simp [badRegister, noReg]

/-- An instruction that continues and whose registers exist makes its effect and nothing else. -/
theorem exec_of_registers {i : Instr} (s : State) (hi : hasEffect i = true) (hend : ending i = .cont)
    (hregs : ∀ b ∈ regOperands i, b.toNat < 8) : exec i s = .next { effect s i with outcome := .cont } := by
  rw [exec_eq_result hi, result_of_good (badRegister_eq_none_iff.mpr hregs), hend]
  exact completeWith_eq _

end Sys2Proof.Machine

/-! SUPPORT. The statements about what each instruction does (40_alu_logic.md, 41_data_movement.md, 42_diag_system.md):
each is the effect of the instruction, read at registers that exist, and the cell laws. -/

namespace Sys2Proof.Machine

/-! ### Registers and the Logic Unit -/

/-- Settles O17: a three-register operation with the sum of R126. -/
theorem addWritesTheSum : Obligations.AddWritesTheSum := by
  intro s a b c ha hb hc
  rw [← add8_eq_mod]
  exact threeRegOp_eq add8 s ha hb hc

/-- Settles O18: five three-register operations, whose functions are known bit by bit. -/
theorem logicInstructionsWriteBitwise : Obligations.LogicInstructionsWriteBitwise := by
  intro s a b c ha hb hc
  simp only [List.forall_mem_cons]
  refine ⟨⟨_, fun k _ => getLsbD_and8 _ _ k, threeRegOp_eq and8 s ha hb hc⟩,
    ⟨_, fun k _ => getLsbD_or8 _ _ k, threeRegOp_eq or8 s ha hb hc⟩,
    ⟨_, fun k _ => BitVec.getLsbD_xor, threeRegOp_eq xor8 s ha hb hc⟩,
    ⟨_, fun k hk => ?nand, threeRegOp_eq nand8 s ha hb hc⟩,
    ⟨_, fun k hk => ?nor, threeRegOp_eq nor8 s ha hb hc⟩, nofun⟩
  case nand => rw [nand8, getLsbD_not8 _ hk, getLsbD_and8]
  case nor => rw [nor8, getLsbD_not8 _ hk, getLsbD_or8]

/-- R123 as a byte: NOT is 255 minus its operand. -/
theorem not8_eq_sub (a : Byte) : not8 a = BitVec.ofNat 8 (255 - a.toNat) :=
  BitVec.eq_of_toNat_eq <| by
    rw [toNat_not8, BitVec.toNat_ofNat]
    omega

/-- Settles O19: the effect of NOT, whose function is R123. -/
theorem notWritesTheComplement : Obligations.NotWritesTheComplement := by
  intro s a b ha hb
  rw [exec_of_registers s rfl rfl (by simp [regOperands, ha, hb]), effect, putReg_eq hb, regValue_eq ha, not8_eq_sub]

/-- Settles O20: the effect of LOAD. -/
theorem loadCopiesTheCell : Obligations.LoadCopiesTheCell := by
  intro s d m hd
  rw [exec_of_registers s rfl rfl (by simp [regOperands, hd]), effect, putReg_eq hd]

/-! ### Cells -/

/-- An answer with one cell written: a read of that cell gives the value, and of any other what it gave before. -/
theorem exists_mem_of_putCell {s : State} {r : Answer} {a v : Byte} (hwf : Memory.wf s.mem)
    (h : r = .next { putCell s a v with outcome := .cont }) :
    ∃ mem', r = .next { s with mem := mem', outcome := .cont } ∧
      Memory.read mem' a.toNat = v ∧ ∀ c, c ≠ a.toNat → Memory.read mem' c = Memory.read s.mem c :=
  ⟨Memory.write s.mem a.toNat v, h, Memory.read_write_same _ _ v hwf.1, fun c hc => Memory.read_write_other _ _ c v hc⟩

/-- Settles O21: the effect of STORE, and the laws of a written cell. -/
theorem storeCopiesTheRegister : Obligations.StoreCopiesTheRegister := by
  intro s r m hr hwf
  refine ⟨Memory.write s.mem m.toNat s.x[r.toNat], ?_, Memory.wf_write _ hwf (byte_lt_numCells m),
    Memory.read_write_same _ _ _ hwf.1, fun a ha => Memory.read_write_other _ _ a _ ha⟩
  rw [exec_of_registers s rfl rfl (by simp [regOperands, hr]), effect, regValue_eq hr, putCell]

section Mov
variable {s : State} {src : Source} (hsrc : ∀ b ∈ sourceRegs src, b.toNat < 8)
include hsrc

theorem exec_mov_reg {d : Byte} (hd : d.toNat < 8) : exec (.mov (.reg d) src) s =
    .next { s with x := s.x.set d.toNat (sourceByte s src), outcome := .cont } := by
  have hregs : ∀ b ∈ regOperands (.mov (.reg d) src), b.toNat < 8 := by
    cases src <;> simp_all [regOperands, sourceRegs]
  rw [exec_of_registers s rfl rfl hregs, effect, putPlace, putReg_eq hd]

theorem exec_mov_mem (a : Byte) :
    exec (.mov (.mem a) src) s = .next { putCell s a (sourceByte s src) with outcome := .cont } := by
  have hregs : ∀ b ∈ regOperands (.mov (.mem a) src), b.toNat < 8 := by
    cases src <;> simp_all [regOperands, sourceRegs]
  exact exec_of_registers s rfl rfl hregs

end Mov

/-- Settles O22: a register receives the source's value, or a cell does, whichever of the three sources it is. -/
theorem movCopiesInAllSixForms : Obligations.MovCopiesInAllSixForms := by
  intro s d r a b v hd hr hwf
  have hreg : ∀ b ∈ sourceRegs (.reg r), b.toNat < 8 := by simpa [sourceRegs] using hr
  have hmem (c : Byte) : ∀ b ∈ sourceRegs (.mem c), b.toNat < 8 := by simp [sourceRegs]
  have himm : ∀ b ∈ sourceRegs (.imm v), b.toNat < 8 := by simp [sourceRegs]
  rw [← regValue_eq hr]
  refine ⟨exec_mov_reg hreg hd, exec_mov_reg (hmem a) hd, exec_mov_reg himm hd, ?_⟩
  simp only [List.forall_mem_cons]
  exact ⟨exists_mem_of_putCell hwf (exec_mov_mem hreg a), exists_mem_of_putCell hwf (exec_mov_mem (hmem b) a),
    exists_mem_of_putCell hwf (exec_mov_mem himm a), nofun⟩

/-- Settles O23: both forms write one register and one cell, in the order of `Config.qmovOrder`. -/
theorem qmovMovesAndClears : Obligations.QmovMovesAndClears := by
  intro s r a hr hwf
  refine ⟨⟨_, ?_, Memory.read_write_same _ _ _ hwf.1, fun c hc => Memory.read_write_other _ _ c _ hc⟩,
    ⟨_, ?_, Memory.read_write_same _ _ 0 hwf.1, fun c hc => Memory.read_write_other _ _ c _ hc⟩⟩
  · rw [exec_of_registers s rfl rfl (by simp [regOperands, hr]), effect, putReg_eq hr, regValue_eq hr, putCell]
  · rw [exec_of_registers s rfl rfl (by simp [regOperands, hr]), effect, putReg_eq hr, putCell]

/-- Settles O24: the effect of INIT is one written cell. -/
theorem initWritesTheValue : Obligations.InitWritesTheValue := fun s _ _ hwf =>
  exists_mem_of_putCell hwf (exec_of_registers s rfl rfl (by simp [regOperands]))

/-- Settles O25: the effect of CLEAR is one written register or cell. -/
theorem clearZeroesItsTarget : Obligations.ClearZeroesItsTarget :=
  ⟨fun s _ hd => execClear_reg s hd,
    fun s _ hwf => exists_mem_of_putCell hwf (exec_of_registers s rfl rfl (by simp [regOperands]))⟩

/-! ### OUT, VER and HALT -/

/-- Settles O26: the effect of OUT is one event. -/
theorem outAppendsTheEvent : Obligations.OutAppendsTheEvent := by
  refine ⟨fun s r hr => ?_, fun s v => completeWith_eq _⟩
  rw [exec_of_registers s rfl rfl (by simp [regOperands, hr]), effect, regValue_eq hr, emitOut]

/-- A line whose tokens decode to an instruction runs it. -/
theorem execText_of_decode {line : Line} {toks : List Token} {i : Instr} (s : State) (htoks : tokenise line = toks)
    (h : decodeTokens line toks = .ok (some i)) : execText line s = exec i s := by
  rw [execText, htoks, execTokens_of_decode s h]

/-- A line whose tokens do not decode takes the decoder's error (R246). -/
theorem execText_of_decode_error {line : Line} {toks : List Token} {e : MachError} (s : State)
    (htoks : tokenise line = toks) (h : decodeTokens line toks = .error e) :
    execText line s = .next (signal s (.error e)) := by
  simp only [execText, htoks, execTokens, runClause, h, takeError]

/-- Settles O12: the three results the decoder can have for a line. -/
theorem execTextRunsDecodedTokens : Obligations.ExecTextRunsDecodedTokens := by
  refine fun line s => ⟨fun h => ?_, fun i h => execText_of_decode s rfl h, fun e h => execText_of_decode_error s rfl h⟩
  rw [execText, h]
  exact completeWith_eq s

/-- Settles O27: the operand of OUT is kept as it is where its first character is `[`. -/
theorem outOfAnAddressIsRefused : Obligations.OutOfAnAddressIsRefused :=
  ⟨fun _ _ => rfl, fun _ s _ h => execText_of_decode s h rfl⟩

theorem exec_ver (b : Bool) (s : State) : exec (.ver b) s = .next { s with verbose := b, outcome := .cont } :=
  completeWith_eq _

/-- The one operand of VER that is neither `0` nor `1` (R108). -/
theorem decodeTokens_ver_invalid (line : Line) {tok : Token} (h0 : tok ≠ ['0']) (h1 : tok ≠ ['1']) :
    decodeTokens line ["VER".toList, tok] = .error (.invalidFlag tok) := by
  have hflag : resolveFlag tok = .error (.invalidFlag tok) := by rw [resolveFlag, if_neg h0, if_neg h1]
  rw [decodeTokens_cons_eq_error_iff]
  exact (decodeInstr_of_arity line (k := .ver) rfl).trans (by rw [decodeOperands, hflag]; rfl)

/-- Settles O28: VER's own effect, its one operand by cases, and the rejections of the count and of the byte 0xFE. -/
theorem verSetsTheFlag : Obligations.VerSetsTheFlag := by
  refine ⟨fun s b => exec_ver b s, fun line tok s h => ?_, fun line args s h hlen => ?_, fun s hpc hop => ?_⟩
  · split
    next h0 => rw [execText_of_decode (i := .ver false) s h (by rw [h0]; rfl), exec_ver]
    next h0 =>
      split
      next h1 => rw [execText_of_decode (i := .ver true) s h (by rw [h1]; rfl), exec_ver]
      next h1 => exact execText_of_decode_error s h (decodeTokens_ver_invalid line h0 h1)
  · refine execText_of_rejects s ?_
    rw [h]
    exact .count (k := .ver) rfl fun hn => hlen (Nat.succ.inj hn)
  · have hrejected : Memory.read s.mem s.pc ∉ executedBytes := by rw [hop]; decide
    rw [stepBinary_of_rejected hpc hrejected, hop, takeError]

/-- HALT has no operand byte, so it is fetched wherever it stands in Memory. -/
theorem fetchInstr_halt {s : State} (hpc : s.pc < 256) (hop : Memory.read s.mem s.pc = opcodeByte .halt) :
    fetchInstr s = .ok .halt :=
  fetchInstr_of_operands hpc hop rfl rfl

/-- Settles O29: HALT's own effect, as an instruction and as a fetched one. -/
theorem haltEndsTheRun : Obligations.HaltEndsTheRun := by
  refine ⟨fun s => rfl, fun s hrun hpc hop => ?_⟩
  have hstep : stepBinary s = .next (signal s .halt) := stepBinary_of_fetch (fetchInstr_halt hpc hop)
  rw [step_binary hrun, hstep, signal, hrun, settleRun_running_halt]

/-- Settles O31: each is its row of `Reserved`. -/
theorem reservedOpcodesRaise : Obligations.ReservedOpcodesRaise := fun s =>
  ⟨exec_of_reserved .init s, exec_of_reserved .out s, exec_of_reserved .clear s, exec_of_reserved .ver s⟩

/-! ### IF -/

/-- Settles O32: the clause is run by `exec` itself, so its nesting plays no part. -/
theorem ifRunsTheSelectedClause : Obligations.IfRunsTheSelectedClause := by
  intro line a op o th el s ha v hv
  refine ⟨exec_ifThen_of_true ha hv, ?_, fun hc hel => ?_, fun toks i h => execTokens_of_decode s h, completeWith_eq s⟩
  · rintro hc ts rfl
    exact exec_ifThen_of_false ha hv hc
  · simp only [exec_ifThen, selectClause, condHolds_eq op ha hv, hc, hel]
    exact completeWith_eq s

/-! ### Which instructions raise and which complete -/

theorem regOperands_ifThen (line : Line) (a : Byte) (op : CmpOp) (o : Source) (th : List Token)
    (el : Option (List Token)) : regOperands (.ifThen line a op o th el) = a :: sourceRegs o := by
  cases o <;> rfl

/-- Settles O35: the check of an instruction is of its register bytes in operand order, an IF's condition included. -/
theorem badRegisterByteRaises : Obligations.BadRegisterByteRaises := by
  intro i s b (h : badRegister i = some b)
  cases hi : i.carriedLine with
  | none =>
    have hout : ∀ tok, i ≠ .out (.addrShaped tok) := by
      rintro tok rfl
      cases h
    rw [exec_eq_result (hasEffect_of_ne hi hout), result_of_bad h]
  | some l =>
    cases i with
    | ifThen line a op o th el =>
      rw [badRegister, regOperands_ifThen] at h
      simp only [exec_ifThen, selectClause, condHolds_checked, checked, h, takeError]
    | _ => cases hi

/-- A well-formed instruction names registers that exist. -/
theorem regOperands_of_wf {i : Instr} (h : i.wf = true) : ∀ b ∈ regOperands i, b.toNat < 8 := by
  cases i with
  | mov d o => cases d <;> cases o <;> simp_all [regOperands, Instr.wf, Place.wf, Source.wf, regOk]
  | qmov f => cases f <;> simpa [regOperands, Instr.wf, QmovForm.wf, regOk] using h
  | out t => cases t <;> simp_all [regOperands, Instr.wf, OutTarget.wf, regOk]
  | clear p => cases p <;> simp_all [regOperands, Instr.wf, Place.wf, regOk]
  | ifThen line a op o th el => cases o <;> simp_all [regOperands, Instr.wf, Source.wf, regOk]
  | _ => simp_all [regOperands, Instr.wf, regOk]

/-- Settles O36: with registers that exist, the effect is made and the ending is HALT's or Continue. -/
theorem wellFormedInstructionsComplete : Obligations.WellFormedInstructionsComplete := by
  intro i s hwf hi hout h9 hA hB hFE
  refine ⟨result s i, exec_eq_result (hasEffect_of_ne hi hout) s, ?_⟩
  rw [result_of_good (badRegister_eq_none_iff.mpr (regOperands_of_wf hwf)), signal_outcome]
  cases i with
  | initReserved => exact absurd rfl h9
  | outReserved => exact absurd rfl hA
  | clearReserved => exact absurd rfl hB
  | verReserved => exact absurd rfl hFE
  | _ => rfl

end Sys2Proof.Machine

/-! SUPPORT. What the instructions leave unchanged (10_state.md R22, R30, 42_diag_system.md R187). The key fact: an
instruction changes what its effect changes, and each group of instructions has effects of one form. -/

namespace Sys2Proof.Machine

/-! ### The form of an effect -/

theorem effect_of_regDest {i : Instr} {d : Byte} (h : regDest i = some d) (s : State) :
    i.carriedLine = none ∧ ∃ v, effect s i = putReg s d v := by
  cases i with
  | mov dst src => cases dst <;> cases h; exact ⟨rfl, _, rfl⟩
  | clear p => cases p <;> cases h; exact ⟨rfl, _, rfl⟩
  | _ => cases h <;> exact ⟨rfl, _, rfl⟩

theorem effect_of_memDest {i : Instr} {m : Byte} (h : memDest i = some m) (s : State) :
    i.carriedLine = none ∧ ∃ v, effect s i = putCell s m v := by
  cases i with
  | mov dst src => cases dst <;> cases h; exact ⟨rfl, _, rfl⟩
  | clear p => cases p <;> cases h; exact ⟨rfl, _, rfl⟩
  | _ => cases h <;> exact ⟨rfl, _, rfl⟩

theorem effect_of_writesNothing {i : Instr} (h : writesNothing i = true) (s : State) :
    i.carriedLine = none ∧ (effect s i).x = s.x ∧ (effect s i).mem = s.mem := by
  cases i with
  | out t => cases t <;> exact ⟨rfl, rfl, rfl⟩
  | ver | halt | jump | initReserved | outReserved | clearReserved | verReserved => exact ⟨rfl, rfl, rfl⟩
  | _ => cases h

theorem effect_diag {i : Instr} (h : ∀ o, i ≠ .out o) (s : State) : (effect s i).diag = s.diag := by
  cases i with
  | out t => exact absurd rfl (h t)
  | mov dst src => cases dst <;> rfl
  | qmov f => cases f <;> rfl
  | clear p => cases p <;> rfl
  | _ => rfl

theorem effect_verbose {i : Instr} (h : ∀ b, i ≠ .ver b) (s : State) : (effect s i).verbose = s.verbose := by
  cases i with
  | ver b => exact absurd rfl (h b)
  | mov dst src => cases dst <;> rfl
  | qmov f => cases f <;> rfl
  | out t => cases t <;> rfl
  | clear p => cases p <;> rfl
  | _ => rfl

/-- An instruction leaves what its effect leaves, for an error leaves the state. -/
theorem exec_preserves {α : Type} (f : State → α) (hf : ∀ u o, f (signal u o) = f u) {i : Instr} {s t : State}
    (hi : i.carriedLine = none) (h : exec i s = .next t) (heff : f (effect s i) = f s) : f t = f s := by
  obtain ⟨b, -, rfl⟩ | rfl := exec_next_cases hi h
  · exact hf s _
  · exact (hf _ _).trans heff

theorem memRead_congr {s t : State} (h : t.mem = s.mem) (a : Nat) : memRead a t = memRead a s := by
  rw [memRead, memRead, h]

/-! ### Frames -/

theorem putReg_other {s : State} {d v : Byte} {k : Nat} (hk : k < 8) (h : k ≠ d.toNat) :
    (putReg s d v).x[k] = s.x[k] := by
  simp only [putReg]
  exact Vector.getElem_setIfInBounds_ne hk (Ne.symm h)

/-- Settles O37: an error leaves the state, and an effect of this group is one written register. -/
theorem registerInstructionFrame : Obligations.RegisterInstructionFrame := by
  intro i d s t hd h
  obtain ⟨hi, v, heff⟩ := effect_of_regDest hd s
  obtain ⟨b, -, rfl⟩ | rfl := exec_next_cases hi h
  · exact ⟨fun _ _ _ => rfl, fun _ => rfl, rfl, rfl, rfl⟩
  · rw [heff]
    exact ⟨fun k hk hne => putReg_other hk hne, fun _ => rfl, rfl, rfl, rfl⟩

/-- Settles O38: an error leaves the state, and an effect of this group is one written cell. -/
theorem storingInstructionFrame : Obligations.StoringInstructionFrame := by
  intro i m s t hm h
  obtain ⟨hi, v, heff⟩ := effect_of_memDest hm s
  obtain ⟨b, -, rfl⟩ | rfl := exec_next_cases hi h
  · exact ⟨rfl, fun _ _ => rfl, rfl, rfl, rfl⟩
  · rw [heff]
    exact ⟨rfl, fun a ha => memRead_write_other v s ha, rfl, rfl, rfl⟩

/-- Settles O39: both forms write one register and one cell, in either order. -/
theorem qmovFrame : Obligations.QmovFrame := by
  rintro f r a s t hf h
  obtain ⟨b, -, rfl⟩ | rfl := exec_next_cases rfl h
  · exact ⟨fun _ _ _ => rfl, fun _ _ => rfl, rfl, rfl, rfl⟩
  · rcases hf with rfl | rfl
    · exact ⟨fun k hk hne => putReg_other hk hne, fun c hc => memRead_write_other _ s hc, rfl, rfl, rfl⟩
    · exact ⟨fun k hk hne => putReg_other hk hne, fun c hc => memRead_write_other _ (putReg s r _) hc, rfl, rfl, rfl⟩

/-- Settles O40: the events, the verbose flag and `pc` each have one instruction that changes them. -/
theorem systemInstructionFrame : Obligations.SystemInstructionFrame := by
  intro i s t hw h
  obtain ⟨hi, hx, hmem⟩ := effect_of_writesNothing hw s
  exact ⟨exec_preserves State.x (fun _ _ => rfl) hi h hx,
    memRead_congr (exec_preserves State.mem (fun _ _ => rfl) hi h hmem),
    fun ho => exec_preserves State.diag (fun _ _ => rfl) hi h (effect_diag ho s),
    fun hb => exec_preserves State.verbose (fun _ _ => rfl) hi h (effect_verbose hb s),
    fun hj => (exec_ignoresPc hj).pc_eq h⟩

/-! ### The diagnostic stream -/

theorem Effect.diag {s u : State} (h : Effect s u) : u.diag = s.diag ∨ ∃ v, u.diag = s.diag ++ [.out v] := by
  cases h with
  | event v => exact .inr ⟨v, rfl⟩
  | _ => exact .inl rfl

/-- Settles O47: an effect appends at most one event, and the effect of OUT alone is one. -/
theorem diagnosticStreamOnlyGrows : Obligations.DiagnosticStreamOnlyGrows := by
  refine fun i s t h => ⟨?_, fun ho hi => exec_preserves State.diag (fun _ _ => rfl) hi h (effect_diag ho s)⟩
  cases exec_answered h with
  | cont hu => exact hu.diag
  | halt | error e => exact .inl rfl

/-! ### What a binary step can fetch -/

/-- An instruction that is fetched was built from an opcode and its operand bytes. -/
theorem buildInstr_of_fetchInstr {s : State} {i : Instr} (h : fetchInstr s = .ok i) :
    ∃ o bs, buildInstr o bs = some i := by
  obtain ⟨op, -, h⟩ := bind_ok h
  cases ho : opcodeOf op with
  | none => rw [ho] at h; cases h
  | some o =>
    rw [ho] at h
    obtain ⟨bs, -, h⟩ := bind_ok h
    refine ⟨o, bs, ?_⟩
    simp only [decode, ho] at h
    cases hb : buildInstr o bs with
    | none => rw [hb] at h; cases h
    | some j => rw [hb] at h; exact congrArg some (Except.ok.inj h)

/-- Every instruction that bytes make has a binary encoding. -/
theorem encode_of_buildInstr {o : Opcode} {bs : List Byte} {i : Instr} (h : buildInstr o bs = some i) :
    encode i ≠ none := by
  unfold buildInstr at h
  split at h <;> cases h <;> exact nofun

theorem encode_of_fetchInstr {s : State} {i : Instr} (h : fetchInstr s = .ok i) : encode i ≠ none := by
  obtain ⟨o, bs, hb⟩ := buildInstr_of_fetchInstr h
  exact encode_of_buildInstr hb

/-- No instruction with a binary encoding is an IF. -/
theorem carriedLine_of_encode {i : Instr} (h : encode i ≠ none) : i.carriedLine = none := by
  cases i with
  | ifThen => exact absurd rfl h
  | _ => rfl

/-- Settles O46: OUT and VER, which alone write the events and the flag, have no binary encoding. -/
theorem binaryStepsLeaveDiagAndVerbose : Obligations.BinaryStepsLeaveDiagAndVerbose := by
  intro s t h
  obtain ⟨e, -, rfl⟩ | ⟨i, u, hi, hu, ht⟩ := stepBinary_cases h
  · exact ⟨rfl, rfl⟩
  · have henc := encode_of_fetchInstr hi
    have hline := carriedLine_of_encode henc
    have hdiag : u.diag = s.diag := exec_preserves State.diag (fun _ _ => rfl) hline hu <|
      effect_diag (by rintro o rfl; exact henc rfl) s
    have hverbose : u.verbose = s.verbose := exec_preserves State.verbose (fun _ _ => rfl) hline hu <|
      effect_verbose (by rintro b rfl; exact henc rfl) s
    obtain rfl | ⟨-, -, rfl⟩ := ht
    · exact ⟨hdiag, hverbose⟩
    · exact ⟨hdiag, hverbose⟩

/-! ### The errors of a binary run -/

/-- The errors that can stop a binary run (43_control_flow.md section 4). -/
def IsBinaryError (e : MachError) : Prop := errorKind e ∈ [ErrorKind.invalidOpcode, .outOfBounds, .invalidRegister]

theorem memRead_isBinaryError {a : Nat} {s : State} {e : MachError} (h : memRead a s = .error e) : IsBinaryError e := by
  by_cases ha : a < Config.numCells
  · cases (memRead_ok s ha).symm.trans h
  · cases (memRead_error s ha).symm.trans h
    simp [IsBinaryError, errorKind]

/-- The error of a checked computation is of its first part or of the rest. -/
theorem bind_error {α β : Type} {x : Except MachError α} {f : α → Except MachError β} {e : MachError}
    (h : x >>= f = .error e) : x = .error e ∨ ∃ a, f a = .error e := by
  cases x with
  | ok a => exact .inr ⟨a, h⟩
  | error e' => exact .inl (congrArg Except.error (Except.error.inj h))

theorem fetchBytes_isBinaryError {k a : Nat} {s : State} {e : MachError} (h : fetchBytes k a s = .error e) :
    IsBinaryError e := by
  induction k generalizing a with
  | zero => cases h
  | succ k ih =>
    rcases bind_error h with h | ⟨b, h⟩
    · exact memRead_isBinaryError h
    · rcases bind_error h with h | ⟨bs, h⟩
      · exact ih h
      · cases h

theorem rejectError_isBinaryError (pc : Nat) (r : DecodeReject) : IsBinaryError (rejectError pc r) := by
  cases r <;> simp [IsBinaryError, rejectError, errorKind]

theorem fetchInstr_isBinaryError {s : State} {e : MachError} (h : fetchInstr s = .error e) : IsBinaryError e := by
  rcases bind_error h with h | ⟨op, h⟩
  · exact memRead_isBinaryError h
  · cases ho : opcodeOf op with
    | none =>
      rw [ho] at h
      cases h
      simp [IsBinaryError, errorKind]
    | some o =>
      rw [ho] at h
      rcases bind_error h with h | ⟨bs, h⟩
      · exact fetchBytes_isBinaryError h
      · cases hd : decode (op :: bs) with
        | ok i => rw [hd] at h; cases h
        | error r =>
          rw [hd] at h
          cases h
          exact rejectError_isBinaryError _ r

theorem ending_isBinaryError {i : Instr} {e : MachError} (h : ending i = .error e) : IsBinaryError e := by
  cases i with
  | initReserved | outReserved | clearReserved | verReserved => cases h; simp [IsBinaryError, errorKind]
  | _ => cases h

/-- Settles O52: an error of the fetch, of a register byte, or of a reserved opcode. -/
theorem binaryRunErrors : Obligations.BinaryRunErrors := by
  intro s t e h he
  obtain ⟨e', hf, rfl⟩ | ⟨i, u, hi, hu, ht⟩ := stepBinary_cases h
  · cases he
    exact fetchInstr_isBinaryError hf
  · have hue : u.outcome = .error e := by
      obtain rfl | ⟨-, -, rfl⟩ := ht
      · exact he
      · exact he
    obtain ⟨b, -, rfl⟩ | rfl := exec_next_cases (carriedLine_of_encode (encode_of_fetchInstr hi)) hu
    · cases hue
      simp [errorKind]
    · exact ending_isBinaryError hue

end Sys2Proof.Machine

/-! SUPPORT. Slots and fetches (30_encoding.md R77 to R81, 43_control_flow.md R208, R209). The key fact: an opcode and
as many bytes as it has operands make an instruction, and the bytes after them play no part; the fetch reads just
those. -/

namespace Sys2Proof.Machine

/-! ### An opcode and its operand bytes -/

/-- The operand bytes make an instruction, whatever bytes follow (R80). -/
theorem exists_buildInstr_append {o : Opcode} {used : List Byte} (h : used.length = operandCount o) :
    ∃ i, ∀ rest, buildInstr o (used ++ rest) = some i := by
  cases o with
  | load | store | not =>
    obtain ⟨a, b, rfl⟩ := List.length_eq_two.mp h
    exact ⟨_, fun _ => rfl⟩
  | add | and | or | xor =>
    obtain ⟨a, b, c, rfl⟩ := List.length_eq_three.mp h
    exact ⟨_, fun _ => rfl⟩
  | jump =>
    obtain ⟨a, rfl⟩ := List.length_eq_one_iff.mp h
    exact ⟨_, fun _ => rfl⟩
  | init | out | clear | ver | halt => exact ⟨_, fun _ => rfl⟩

/-- Where an instruction is made, its operand bytes are there. -/
theorem operandCount_le_of_buildInstr {o : Opcode} {bs : List Byte} {i : Instr} (h : buildInstr o bs = some i) :
    operandCount o ≤ bs.length := by
  unfold buildInstr at h
  split at h <;> simp [operandCount] at h ⊢

/-- The operand bytes alone make the same instruction. -/
theorem buildInstr_take {o : Opcode} {bs : List Byte} {i : Instr} (h : buildInstr o bs = some i) :
    buildInstr o (bs.take (operandCount o)) = some i := by
  have hlen := List.length_take_of_le (operandCount_le_of_buildInstr h)
  obtain ⟨j, hj⟩ := exists_buildInstr_append hlen
  have hall := hj (bs.drop (operandCount o))
  have honly := hj []
  rw [List.take_append_drop, h] at hall
  rwa [List.append_nil, ← hall] at honly

theorem decode_of_buildInstr {o : Opcode} {bs : List Byte} {i : Instr} (h : buildInstr o bs = some i) :
    decode (opcodeByte o :: bs) = .ok i := by
  simp only [decode, opcodeOf_opcodeByte, h]

/-- Bytes that decode are an opcode byte and what it makes an instruction of. -/
theorem buildInstr_of_decode {bs : List Byte} {i : Instr} (h : decode bs = .ok i) :
    ∃ o rest, bs = opcodeByte o :: rest ∧ buildInstr o rest = some i := by
  cases bs with
  | nil => cases h
  | cons op rest =>
    cases ho : opcodeOf op with
    | none => simp [decode, ho] at h
    | some o =>
      refine ⟨o, rest, by rw [opcodeByte_of_opcodeOf ho], ?_⟩
      cases hb : buildInstr o rest with
      | none => simp [decode, ho, hb] at h
      | some j =>
        simp only [decode, ho, hb] at h
        exact congrArg some (Except.ok.inj h)

/-- Settles O1: each row's slot is its opcode byte and bytes that make the instruction. -/
theorem decodeUndoesEncode : Obligations.DecodeUndoesEncode := by
  intro i slot extra h
  cases i with
  | nand | nor | mov | qmov | init | out | clear | ver | ifThen => cases h
  | _ => cases h; exact decode_of_buildInstr rfl

/-- Settles O2: the operand bytes make the instruction, with any bytes after them or none. -/
theorem unusedSlotBytesIgnored : Obligations.UnusedSlotBytesIgnored := by
  intro o used rest h
  obtain ⟨i, hi⟩ := exists_buildInstr_append h
  exact ⟨i, decode_of_buildInstr (List.append_nil used ▸ hi []), decode_of_buildInstr (hi rest)⟩

/-- Settles O6: eight fixed slots. -/
theorem sampleSlotsDecode : Obligations.SampleSlotsDecode := by
  unfold Obligations.SampleSlotsDecode
  decide

/-! ### Fetching a run of bytes -/

/-- The cells from an address on. -/
def cellsFrom (s : State) (a k : Nat) : List Byte := (List.range' a k).map (Memory.read s.mem)

theorem length_cellsFrom (s : State) (a k : Nat) : (cellsFrom s a k).length = k := by simp [cellsFrom]

/-- A run of bytes inside Memory is fetched. -/
theorem fetchBytes_ok {k a : Nat} (s : State) (h : a + k ≤ Config.numCells) :
    fetchBytes k a s = .ok (cellsFrom s a k) := by
  induction k generalizing a with
  | zero => rfl
  | succ k ih =>
    have hrest := ih (a := a + 1) (by omega)
    simp only [fetchBytes, memRead_ok s (show a < Config.numCells by omega), hrest]
    rfl

/-- A run of bytes that leaves Memory stops at the first cell beyond it, for `pc` does not wrap (R209). -/
theorem fetchBytes_error {k a : Nat} (s : State) (ha : a ≤ Config.numCells) (h : Config.numCells < a + k) :
    fetchBytes k a s = .error (.outOfBounds Config.numCells) := by
  induction k generalizing a with
  | zero => omega
  | succ k ih =>
    by_cases hlt : a < Config.numCells
    · simp only [fetchBytes, memRead_ok s hlt, ih hlt (show Config.numCells < a + 1 + k by omega)]
      rfl
    · obtain rfl : a = Config.numCells := by omega
      simp only [fetchBytes, memRead_error s hlt]
      rfl

/-- The bytes that stand in Memory are the cells there. -/
theorem cellsFrom_of_bytesAt {s : State} {a : Nat} {bs : List Byte} (h : bytesAt s a bs) :
    cellsFrom s a bs.length = bs := by
  obtain ⟨-, hread⟩ := h
  refine List.ext_getElem (length_cellsFrom s a _) fun k _ hk => ?_
  simpa [cellsFrom] using hread k hk

/-- The fetch reads the instruction that the bytes at `pc` decode to. -/
theorem fetchInstr_of_bytesAt {s : State} {bs : List Byte} {i : Instr} (h : bytesAt s s.pc bs)
    (hd : decode bs = .ok i) : fetchInstr s = .ok i := by
  obtain ⟨o, rest, rfl, hb⟩ := buildInstr_of_decode hd
  have hlen := operandCount_le_of_buildInstr hb
  obtain ⟨hop, hrest⟩ := List.cons.inj (cellsFrom_of_bytesAt h)
  have hfit := h.1
  rw [List.length_cons] at hfit
  have htake : cellsFrom s (s.pc + 1) (operandCount o) = rest.take (operandCount o) := by
    conv_rhs => rw [← hrest]
    simp [List.take_range'_of_length_ge, cellsFrom, ← List.map_take, hlen]
  refine fetchInstr_of_operands (show s.pc < Config.numCells by omega) hop
    (fetchBytes_ok s (show s.pc + 1 + operandCount o ≤ Config.numCells by omega)) ?_
  rw [htake]
  exact buildInstr_take hb

/-- Settles O10: the bytes at `pc` are fetched as the instruction they decode to. -/
theorem stepRunsDecodedInstruction : Obligations.StepRunsDecodedInstruction := by
  intro s bs i hrun hbs hd
  rw [step_binary hrun, stepBinary_of_fetch (fetchInstr_of_bytesAt hbs hd)]
  exact ⟨fun t ht => by rw [ht]; rfl, fun r hr => by rw [hr]; rfl⟩

/-! ### The top of Memory -/

theorem fetchInstr_of_pc_outside {s : State} (h : 256 ≤ s.pc) : fetchInstr s = .error (.outOfBounds s.pc) := by
  rw [fetchInstr, memRead_error s (Nat.not_lt.mpr h)]
  rfl

/-- A fetch error in a binary run stops it. -/
theorem step_of_fetch_error {s : State} {e : MachError} (hrun : s.run = .running .binary)
    (h : fetchInstr s = .error e) : step s = .next { s with outcome := .error e, run := .stopped e } := by
  rw [step_binary hrun, stepBinary_of_fetch_error h, takeError, signal, hrun, settleRun_running_error]

section OpcodeAtPc
variable {s : State} {o : Opcode} (hpc : s.pc < 256) (ho : opcodeOf (Memory.read s.mem s.pc) = some o)
include hpc ho

/-- Operand bytes that are all in Memory are fetched, and make an instruction. -/
theorem exists_fetchInstr (hfit : s.pc + operandCount o < 256) : ∃ i, fetchInstr s = .ok i := by
  obtain ⟨i, hi⟩ := exists_buildInstr_append (length_cellsFrom s (s.pc + 1) (operandCount o))
  have hbs := fetchBytes_ok s (show s.pc + 1 + operandCount o ≤ 256 by omega)
  have hmade := hi []
  rw [List.append_nil] at hmade
  exact ⟨i, fetchInstr_of_operands hpc (opcodeByte_of_opcodeOf ho).symm hbs hmade⟩

/-- Operand bytes that are not stop the fetch at address 256. -/
theorem fetchInstr_of_operands_outside (hout : 256 ≤ s.pc + operandCount o) :
    fetchInstr s = .error (.outOfBounds 256) :=
  fetchInstr_of_operand_error hpc (opcodeByte_of_opcodeOf ho).symm
    (fetchBytes_error s hpc (show 256 < s.pc + 1 + operandCount o by omega))

end OpcodeAtPc

/-- Settles O15: where the opcode and its operand bytes lie decides the fetch, and R77 says how many there are. -/
theorem fetchStopsAtTheTopOfMemory : Obligations.FetchStopsAtTheTopOfMemory := by
  refine ⟨fun s hrun hpc => step_of_fetch_error hrun (fetchInstr_of_pc_outside hpc),
    fun s o hpc ho => ⟨fun hout hrun => step_of_fetch_error hrun (fetchInstr_of_operands_outside hpc ho hout),
      exists_fetchInstr hpc ho⟩,
    fun s hpc ho => fetchInstr_of_unassigned hpc ho, rejectedOpcodesStopTheRun, ?_, ?_, ?_, ?_⟩ <;>
  · intro o
    cases o <;> decide

/-! ### Two binary runs -/

/-- A state that a step leaves as it is stays for any number of steps. -/
theorem runSteps_of_fixed {s : State} (h : step s = .next s) (n : Nat) : runSteps n s = .next s := by
  induction n with
  | zero => rfl
  | succ n ih => simpa only [runSteps, h] using ih

/-- Settles O51: a JUMP to its own address leaves the state as it is. -/
theorem jumpToItselfNeverEnds : Obligations.JumpToItselfNeverEnds := by
  intro s hrun hcont hpc hop htarget n
  refine runSteps_of_fixed ?_ n
  rw [step_binary hrun, stepBinary_jump (fetchInstr_jump hpc hop), completeWith_eq, htarget, ← hcont]

/-- Settles O53: the step is the STORE and the advance, and memory is then read as the STORE left it. -/
theorem storeIsSeenByTheNextFetch : Obligations.StoreIsSeenByTheNextFetch := by
  intro s r m hr hrun hwf hbs hm
  obtain ⟨mem', hexec, -, hread, -⟩ := storeCopiesTheRegister s r m hr hwf
  obtain ⟨hstep, -⟩ := stepRunsDecodedInstruction s _ _ hrun hbs (decode_of_buildInstr (o := .store) rfl)
  refine ⟨_, hstep _ hexec, hm.symm, hrun, ?_⟩
  rw [← hread]
  exact (congrArg (memRead · _) hm.symm).trans (memRead_byte m _)

end Sys2Proof.Machine

/-! SUPPORT. The invariant of the state and the end of every text run (10_state.md R24, R31, 43_control_flow.md R216).
The key facts: an effect writes existing cells only and at most one byte to `pc`, and no instruction starts a run. -/

namespace Sys2Proof.Machine

/-! ### The run status -/

/-- Settles O13: an outcome is one field, and the run status one table (R28). -/
theorem outcomeSettlesTheRun : Obligations.OutcomeSettlesTheRun := by
  refine fun s o => ⟨⟨rfl, rfl, rfl, rfl⟩, rfl, rfl, settleRun_cont s.run, fun l hl => ⟨?_, fun e => ?_⟩,
    fun hn => settleRun_of_notRunning hn o⟩
  · rw [signal_run, hl, settleRun_running_halt]
  · rw [signal_run, hl, settleRun_running_error]

/-- Outside a run the machine waits (R256, log entry 4). -/
theorem step_of_notRunning {s : State} (h : notRunning s = true) : step s = .next s := by
  cases hr : s.run with
  | running l =>
    rw [notRunning, hr] at h
    cases h
  | idle | halted | stopped e => simp only [step, engineStep, hr]

/-- Settles O11: one turn of the loop in progress, or none. -/
theorem textAndWaitingSteps : Obligations.TextAndWaitingSteps :=
  ⟨fun _ _ _ h => step_text h, fun _ h => step_text h, fun _ h => step_of_notRunning h⟩

theorem Effect.run_eq {s u : State} (h : Effect s u) : u.run = s.run := by
  cases h <;> rfl

/-- An instruction changes the run status as its outcome does (R28). -/
theorem Answered.run_eq {s t : State} (h : Answered s t) : t.run = settleRun s.run t.outcome := by
  cases h with
  | cont hu => rw [signal_run, signal_outcome, hu.run_eq]
  | halt | error e => rfl

/-- An instruction of a run leaves it in progress or ends it. -/
theorem Answered.running_or_ended {s t : State} {l : RunLoop} (h : Answered s t) (hs : s.run = .running l) :
    t.run = .running l ∨ notRunning t = true := by
  have hrun := h.run_eq
  rw [hs] at hrun
  cases ho : t.outcome with
  | cont => exact .inl (by rw [hrun, ho, settleRun_cont])
  | halt | error e => exact .inr (by rw [notRunning, hrun, ho]; rfl)

/-! ### Text runs end -/

/-- A run of steps begins with one step. -/
theorem runSteps_succ_next {n : Nat} {s t : State} (h : runSteps (n + 1) s = .next t) :
    ∃ u, step s = .next u ∧ runSteps n u = .next t := by
  rw [runSteps] at h
  cases hs : step s with
  | next u => exact ⟨u, rfl, by rwa [hs] at h⟩
  | fault r => cases r
  | refused r => rw [hs] at h; cases h

/-- Once no run is in progress, none is after any number of steps. -/
theorem notRunning_of_runSteps {n : Nat} {s t : State} (hs : notRunning s = true) (h : runSteps n s = .next t) :
    notRunning t = true := by
  cases (runSteps_of_fixed (step_of_notRunning hs) n).symm.trans h
  exact hs

theorem notRunning_of_textRun {rest : List Line} {s t : State} (hs : s.run = .running (.text rest))
    (h : runSteps (rest.length + 1) s = .next t) : notRunning t = true := by
  induction rest generalizing s with
  | nil =>
    obtain ⟨u, hu, h⟩ := runSteps_succ_next h
    cases (step_text hs).symm.trans hu
    exact notRunning_of_runSteps rfl h
  | cons l ls ih =>
    obtain ⟨u, hu, h⟩ := runSteps_succ_next h
    have hline : Answered { s with run := .running (.text ls) } u := execText_answered ((step_text hs).symm.trans hu)
    rcases hline.running_or_ended rfl with hgoes | hended
    · exact ih hgoes h
    · exact notRunning_of_runSteps hended h

/-- Settles O50: every step takes a line or finds that the run has ended. -/
theorem textRunsTerminate : Obligations.TextRunsTerminate := fun lines s _ h =>
  notRunning_of_textRun (s := startText lines s) rfl h

/-! ### The invariant -/

/-- An effect writes cells that exist, and `pc` at most a byte. -/
theorem Effect.inv {s u : State} (h : Effect s u) (hs : s.Inv) : u.Inv := by
  obtain ⟨hmem, hpc⟩ := hs
  cases h with
  | none | reg i v | event v | flag b => exact ⟨hmem, hpc⟩
  | cell a v | cellReg a v i w | regCell i w a v => exact ⟨Memory.wf_write v hmem (byte_lt_numCells a), hpc⟩
  | jump t => exact ⟨hmem, Nat.le_trans (Nat.le_of_lt t.isLt) (by decide)⟩

theorem Answered.inv {s t : State} (h : Answered s t) (hs : s.Inv) : t.Inv := by
  cases h with
  | cont hu => exact hu.inv hs
  | halt | error e => exact hs

/-- A binary step advances `pc` only from a slot whose opcode lies in Memory. -/
theorem stepBinary_inv {s t : State} (hs : s.Inv) (h : stepBinary s = .next t) : t.Inv := by
  obtain ⟨e, -, rfl⟩ | ⟨i, u, hi, hu, rfl | ⟨-, hjump, rfl⟩⟩ := stepBinary_cases h
  · exact hs
  · exact (exec_answered hu).inv hs
  · obtain ⟨hmem, -⟩ := (exec_answered hu).inv hs
    have hpc : u.pc = s.pc := (exec_ignoresPc hjump).pc_eq hu
    have hin : s.pc < 256 := fetchInstr_pc hi
    exact ⟨hmem, show u.pc + 4 ≤ 259 by omega⟩

theorem textTurn_inv {rest : List Line} {s t : State} (hs : s.Inv) (h : textTurn rest s = .next t) : t.Inv := by
  cases rest with
  | nil =>
    cases h
    exact hs
  | cons l ls => exact (execText_answered h).inv hs

/-- Settles O43: each loop keeps the invariant, and a machine that waits keeps its state. -/
theorem stepKeepsTheInvariant : Obligations.StepKeepsTheInvariant := by
  intro s t hs h
  cases hr : s.run with
  | running loop =>
    cases loop with
    | binary => exact stepBinary_inv hs ((step_binary hr).symm.trans h)
    | text rest => exact textTurn_inv hs ((step_text hr).symm.trans h)
  | idle | halted | stopped e =>
    have hwait : notRunning s = true := by rw [notRunning, hr]
    cases (step_of_notRunning hwait).symm.trans h
    exact hs

/-- Settles O44: no cell is listed and `pc` is 0. -/
theorem resetMeetsTheInvariant : Obligations.ResetMeetsTheInvariant := ⟨State.reset_mem_wf, Nat.zero_le _⟩

/-- A slot is placed where four bytes fit. -/
theorem slotAddress_le (s : State) : slotAddress s + 4 ≤ 256 := by
  unfold slotAddress
  split
  next hfit => exact hfit
  next => decide

theorem withFetchWord_inv {s : State} (hs : s.Inv) (nbits w : Nat) : (s.withFetchWord nbits w).Inv := by
  have haddr := slotAddress_le s
  have hlen : (tableSlot nbits w).length ≤ 4 := List.length_take_le ..
  exact ⟨Memory.wf_writeAll _ hs.1 (show slotAddress s + (tableSlot nbits w).length ≤ 256 by omega),
    show slotAddress s ≤ 259 by omega⟩

/-- Settles O45: each operation writes existing cells only, and `pc` within its range. -/
theorem hostOperationsKeepTheInvariant : Obligations.HostOperationsKeepTheInvariant := by
  refine fun s hs => ⟨resetMeetsTheInvariant, fun a v t h => ?_, fun bytes => ?_,
    fun line t h => (execText_answered h).inv hs, fun _ => hs, ⟨hs.1, Nat.zero_le _⟩, fun t h => stepBinary_inv hs h,
    withFetchWord_inv hs⟩
  · obtain ⟨ha, rfl⟩ := memWrite_inv h
    exact ⟨Memory.wf_write v hs.1 ha, hs.2⟩
  · obtain ⟨mem', hstate, hwf, -⟩ := loadImageFillsFromZero bytes s hs.1
    rw [hstate]
    exact ⟨hwf, hs.2⟩

end Sys2Proof.Machine

/-! SUPPORT. What an IF runs, and an induction over the nesting of IF (43_control_flow.md R203, R205). The key fact: the
instruction that an IF runs is chosen by its condition, before anything runs, and has fewer levels than the IF. -/

namespace Sys2Proof.Machine

/-! ### The choice of an IF -/

/-- What an IF has to run: nothing where the selected clause is empty or missing (R203). -/
def chosen (line : Line) (a : Byte) (op : CmpOp) (o : Source) (th : List Token) (el : Option (List Token)) (s : State) :
    Except MachError (Option Instr) :=
  condHolds a op o s >>= fun c => decodeTokens line (if c then th else el.getD [])

/-- A decoded clause run as an instruction of its own. -/
def runChosen (s : State) : Except MachError (Option Instr) → Answer
  | .error e => takeError e s
  | .ok none => completeWith s
  | .ok (some i) => exec i s

theorem runClause_eq_runChosen (line : Line) (toks : List Token) (s : State) :
    runClause exec line toks s = runChosen s (decodeTokens line toks) := by
  unfold runClause
  split <;> simp_all only [runChosen]

section Chosen
variable (line : Line) (a : Byte) (op : CmpOp) (o : Source) (th : List Token) (el : Option (List Token))

theorem exec_ifThen_eq_runChosen (s : State) :
    exec (.ifThen line a op o th el) s = runChosen s (chosen line a op o th el s) := by
  rw [exec_ifThen, chosen]
  unfold selectClause
  split
  next e hc => rw [hc]; rfl
  next hc => rw [hc]; exact runClause_eq_runChosen line th s
  next hc =>
    rw [hc]
    cases el with
    | none => rfl
    | some ts => exact runClause_eq_runChosen line ts s

variable {line a op o th el}

theorem levels_of_chosen {s : State} {i : Instr} (h : chosen line a op o th el s = .ok (some i)) :
    levels i < levels (.ifThen line a op o th el) := by
  obtain ⟨c, -, h⟩ := bind_ok h
  have hlt := decodeTokens_levels h
  have hclauses : (if c = true then th else el.getD []).length ≤ th.length + (el.getD []).length := by
    cases c <;> simp
  exact Nat.lt_succ_of_lt (Nat.lt_of_lt_of_le hlt hclauses)

end Chosen

/-- Induction over the nesting of IF: an IF may use the property of whatever it has to run. -/
theorem instr_induction {P : Instr → Prop} (leaf : ∀ i, i.carriedLine = none → P i)
    (ifThen : ∀ line a op o th el, (∀ s i, chosen line a op o th el s = .ok (some i) → P i) →
      P (.ifThen line a op o th el)) (i : Instr) : P i := by
  induction hn : levels i using Nat.strongRecOn generalizing i with
  | ind n ih =>
    cases i with
    | ifThen line a op o th el =>
      exact ifThen line a op o th el fun s j hj => ih (levels j) (hn ▸ levels_of_chosen hj) j rfl
    | _ => exact leaf _ rfl

/-! ### Nothing but OUT of an address stops a step -/

/-- Of the instructions other than IF, only OUT of an address has no effect of its own. -/
theorem hasEffect_or_outAddress {i : Instr} (hi : i.carriedLine = none) :
    hasEffect i = true ∨ ∃ tok, i = .out (.addrShaped tok) := by
  by_cases h : ∃ tok, i = .out (.addrShaped tok)
  · exact .inr h
  · exact .inl (hasEffect_of_ne hi fun tok htok => h ⟨tok, htok⟩)

theorem runChosen_endsWell {x : Except MachError (Option Instr)} (s : State)
    (h : ∀ i, x = .ok (some i) → endsWell (exec i s) = true) : endsWell (runChosen s x) = true := by
  match x with
  | .error e => rfl
  | .ok none => rfl
  | .ok (some i) => exact h i rfl

theorem exec_endsWell (i : Instr) (s : State) : endsWell (exec i s) = true := by
  induction i using instr_induction with
  | leaf i hi =>
    rcases hasEffect_or_outAddress hi with heff | ⟨tok, rfl⟩
    · rw [exec_eq_result heff]
      rfl
    · rfl
  | ifThen line a op o th el ih =>
    rw [exec_ifThen_eq_runChosen]
    exact runChosen_endsWell s (ih s)

theorem execText_endsWell (line : Line) (s : State) : endsWell (execText line s) = true := by
  rw [execText, execTokens, runClause_eq_runChosen]
  exact runChosen_endsWell s fun i _ => exec_endsWell i s

theorem advancePc_endsWell {r : Answer} (i : Instr) (h : endsWell r = true) : endsWell (advancePc i r) = true := by
  cases r with
  | next t => rfl
  | fault e => cases e
  | refused r => exact h

theorem stepBinary_endsWell (s : State) : endsWell (stepBinary s) = true := by
  cases hf : fetchInstr s with
  | error e => rw [stepBinary_of_fetch_error hf]; rfl
  | ok i => rw [stepBinary_of_fetch hf]; exact advancePc_endsWell i (exec_endsWell i s)

/-- Settles O42: by induction over the nesting of IF for the instructions, and by the run in progress for the steps. -/
theorem nothingElseStops : Obligations.NothingElseStops := by
  refine ⟨exec_endsWell, fun s => ?_⟩
  cases hr : s.run with
  | running loop =>
    cases loop with
    | binary => exact step_binary hr ▸ stepBinary_endsWell s
    | text rest =>
      rw [step_text hr]
      cases rest with
      | nil => rfl
      | cons l ls => exact execText_endsWell l _
  | idle | halted | stopped e => rw [step_of_notRunning (by rw [notRunning, hr])]; rfl

end Sys2Proof.Machine

/-! SUPPORT. The verbose flag, the run status, the events and the last outcome decide nothing (10_state.md R36). The key
fact: an effect and the choice of an IF are functions of registers, memory and `pc`, but for what they add to the
rest. -/

namespace Sys2Proof.Machine

/-- States that agree in all an instruction can read. -/
structure SameVisible (s s' : State) : Prop where
  x : s.x = s'.x
  mem : s.mem = s'.mem
  pc : s.pc = s'.pc

/-- `t` and `t'` come from `s` and `s'` by the same changes. -/
structure SameChanges (s s' t t' : State) : Prop where
  visible : SameVisible t t'
  verbose : s.verbose = s'.verbose → t.verbose = t'.verbose
  events : ∃ es, t.diag = s.diag ++ es ∧ t'.diag = s'.diag ++ es

/-- The same refusal, or the same changes ending alike. -/
inductive SameAnswer (s s' : State) : Answer → Answer → Prop where
  | ended {u u' : State} (o : StepOutcome) : SameChanges s s' u u' →
      SameAnswer s s' (.next (signal u o)) (.next (signal u' o))
  | refused (r : Refusal) : SameAnswer s s' (.refused r) (.refused r)

theorem effect_verbose_congr {s s' : State} (hv : s.verbose = s'.verbose) (i : Instr) :
    (effect s i).verbose = (effect s' i).verbose := by
  by_cases hver : ∃ b, i = .ver b
  · obtain ⟨b, rfl⟩ := hver
    rfl
  · have hne : ∀ b, i ≠ .ver b := fun b hb => hver ⟨b, hb⟩
    rw [effect_verbose hne, effect_verbose hne, hv]

section SameVisible
variable {s s' : State} (h : SameVisible s s')
include h

theorem SameVisible.regValue_eq (b : Byte) : regValue s b = regValue s' b := by
  simp only [regValue, h.x]

theorem SameVisible.sourceByte_eq (o : Source) : sourceByte s o = sourceByte s' o := by
  cases o with
  | reg r => exact h.regValue_eq r
  | mem a => simp only [sourceByte, h.mem]
  | imm v => rfl

theorem SameVisible.chosen_eq (line : Line) (a : Byte) (op : CmpOp) (o : Source) (th : List Token)
    (el : Option (List Token)) : chosen line a op o th el s = chosen line a op o th el s' := by
  simp only [chosen, condHolds_checked, h.regValue_eq, h.sourceByte_eq]

/-- What an effect writes to registers, memory and `pc` is read from these. -/
theorem SameVisible.effect (i : Instr) : SameVisible (effect s i) (effect s' i) := by
  obtain ⟨x, mem, pc, verbose, run, diag, outcome⟩ := s
  obtain ⟨x', mem', pc', verbose', run', diag', outcome'⟩ := s'
  obtain ⟨rfl, rfl, rfl⟩ : x = x' ∧ mem = mem' ∧ pc = pc' := ⟨h.x, h.mem, h.pc⟩
  cases i with
  | mov dst src => cases dst <;> cases src <;> exact ⟨rfl, rfl, rfl⟩
  | qmov f => cases f <;> exact ⟨rfl, rfl, rfl⟩
  | out t => cases t <;> exact ⟨rfl, rfl, rfl⟩
  | clear p => cases p <;> exact ⟨rfl, rfl, rfl⟩
  | _ => exact ⟨rfl, rfl, rfl⟩

theorem SameVisible.effect_events (i : Instr) :
    ∃ es, (Machine.effect s i).diag = s.diag ++ es ∧ (Machine.effect s' i).diag = s'.diag ++ es := by
  by_cases hout : ∃ o, i = .out o
  · obtain ⟨o, rfl⟩ := hout
    cases o with
    | reg r => exact ⟨[.out (regValue s r)], rfl, by rw [h.regValue_eq]; rfl⟩
    | imm v => exact ⟨[.out v], rfl, rfl⟩
    | addrShaped tok => exact ⟨[], by simp [Machine.effect], by simp [Machine.effect]⟩
  · have hne : ∀ o, i ≠ .out o := fun o ho => hout ⟨o, ho⟩
    exact ⟨[], by rw [effect_diag hne, List.append_nil], by rw [effect_diag hne, List.append_nil]⟩

theorem SameVisible.sameChanges_effect (i : Instr) : SameChanges s s' (Machine.effect s i) (Machine.effect s' i) :=
  ⟨h.effect i, fun hv => effect_verbose_congr hv i, h.effect_events i⟩

theorem SameVisible.sameChanges_none : SameChanges s s' s s' :=
  ⟨h, id, [], (List.append_nil _).symm, (List.append_nil _).symm⟩

/-- A register byte is checked without a look at the state, so an instruction raises in both states or acts in both. -/
theorem SameVisible.sameAnswer_result (i : Instr) : SameAnswer s s' (.next (result s i)) (.next (result s' i)) := by
  cases hb : badRegister i with
  | some b =>
    rw [result_of_bad hb, result_of_bad hb]
    exact .ended _ h.sameChanges_none
  | none =>
    rw [result_of_good hb, result_of_good hb]
    exact .ended _ (h.sameChanges_effect i)

theorem SameVisible.sameAnswer_exec (i : Instr) : SameAnswer s s' (exec i s) (exec i s') := by
  induction i using instr_induction with
  | leaf i hi =>
    rcases hasEffect_or_outAddress hi with heff | ⟨tok, rfl⟩
    · rw [exec_eq_result heff, exec_eq_result heff]
      exact h.sameAnswer_result i
    · exact .refused _
  | ifThen line a op o th el ih =>
    rw [exec_ifThen_eq_runChosen, exec_ifThen_eq_runChosen, ← h.chosen_eq]
    match hc : chosen line a op o th el s with
    | .error e => exact .ended _ h.sameChanges_none
    | .ok none => exact .ended _ h.sameChanges_none
    | .ok (some i) => exact ih s i hc

end SameVisible

/-- Settles O48: by induction over the nesting of IF, both states answer by the same changes. -/
theorem bookkeepingIsNeverRead : Obligations.BookkeepingIsNeverRead := by
  intro i s s' hx hmem hpc
  have hans := SameVisible.sameAnswer_exec ⟨hx, hmem, hpc⟩ i
  generalize exec i s = r, exec i s' = r' at hans
  cases hans with
  | ended o hc =>
    obtain ⟨⟨hx, hmem, hpc⟩, hverbose, hevents⟩ := hc
    refine ⟨nofun, fun t ht => ?_⟩
    cases ht
    exact ⟨_, rfl, hx, hmem, hpc, rfl, hverbose, hevents⟩
  | refused r => exact ⟨fun _ hr => hr, nofun⟩

end Sys2Proof.Machine

/-! SUPPORT. The identities of the Logic Unit (40_alu_logic.md R136) and the dump of Memory (20_memory.md R45, R46). -/

namespace Sys2Proof.Machine

theorem and8_self (a : Byte) : and8 a a = a := BitVec.and_self

theorem or8_self (a : Byte) : or8 a a = a := BitVec.or_self

theorem xor8_self (a : Byte) : xor8 a a = 0 := BitVec.xor_self

theorem and8_comm (a b : Byte) : and8 a b = and8 b a := BitVec.and_comm a b

theorem or8_comm (a b : Byte) : or8 a b = or8 b a := BitVec.or_comm a b

theorem add8_comm (a b : Byte) : add8 a b = add8 b a := by rw [add8, add8, Nat.add_comm]

/-- Settles O59: the laws of the bitwise operations, and NAND and NOR through AND and OR. -/
theorem logicUnitIdentities : Obligations.LogicUnitIdentities := fun a b =>
  ⟨rfl, rfl, BitVec.not_not, and8_comm a b, or8_comm a b, BitVec.xor_comm a b, congrArg not8 (and8_comm a b),
    congrArg not8 (or8_comm a b), add8_comm a b, xor8_self a, and8_self a, or8_self a, congrArg not8 (and8_self a),
    congrArg not8 (or8_self a), BitVec.xor_allOnes, BitVec.toNat_ofNat ..⟩

/-- Settles O56: the eight positions in turn. -/
theorem renderWritesEightBits : Obligations.RenderWritesEightBits := by
  refine fun v => ⟨rfl, fun k hk => ?_⟩
  interval_cases k <;> rfl

/-- A dump has a row for each cell it names that exists. -/
theorem length_dump (start length : Nat) (s : State) :
    (dump start length s).length = min (start + length) 256 - start := by
  simp [dump]

/-- Settles O55: the number of rows decides both empty cases. -/
theorem dumpIsClamped : Obligations.DumpIsClamped := by
  refine fun start length s => ⟨length_dump start length s, fun k hk => by simp [dump], fun hstart => ?_,
    fun hlen => ?_⟩
  · exact List.eq_nil_of_length_eq_zero (by rw [length_dump]; omega)
  · exact List.eq_nil_of_length_eq_zero (by rw [length_dump]; omega)

end Sys2Proof.Machine

/-! SUPPORT. A text line is its instruction (30_encoding.md R88 to R102). The key facts: each operand's token is read
back as the operand, and a line of tokens that hold no space, tab or `;` is cut into just those tokens. -/

namespace Sys2Proof.Machine

/-! ### Operand tokens are read back -/

theorem resolveReg_regToken {r : Byte} (h : regOk r = true) : resolveReg (regToken r) = .ok r := by
  have hlt : r.toNat < 8 := of_decide_eq_true h
  rw [regToken, resolveReg_of_regNumeral (regNumeral_decimal r.toNat), if_pos hlt, BitVec.ofNat_toNat,
    BitVec.setWidth_eq]

theorem resolveAddr_addrToken (a : Byte) : resolveAddr (addrToken a) = .ok a := by
  rw [addrToken, resolveAddr_of_addrNumeral (addrNumeral_decimal a.toNat), if_pos a.isLt, BitVec.ofNat_toNat,
    BitVec.setWidth_eq]

theorem resolveImm_immToken (v : Byte) : resolveImm (immToken v) = .ok v := by
  rw [immToken, resolveImm_of_immNumeral (immNumeral_decimal v.toNat), if_pos (Nat.le_of_lt_succ v.isLt),
    BitVec.ofNat_toNat, BitVec.setWidth_eq]

theorem mem_digitChars_of_mem_decimal {n : Nat} {c : Char} (h : c ∈ decimal n) : c ∈ digitChars 10 :=
  (writesNumber_decimal n).2.1 c h

theorem shapeOf_regToken (r : Byte) : shapeOf (regToken r) = .reg := rfl

/-- Neither `R` nor `[` is a decimal digit. -/
theorem shapeOf_immToken (v : Byte) : shapeOf (immToken v) = .imm := by
  have hhead (c : Char) (hc : c ∉ digitChars 10) : (immToken v).head? ≠ some c := fun h =>
    hc (mem_digitChars_of_mem_decimal (List.mem_of_head? h))
  exact shapeOf_eq_imm_iff.mpr ⟨hhead 'R' (by decide), hhead '[' (by decide)⟩

/-- Two checked computations that both succeed. -/
theorem bind_of_ok {α β : Type} {x : Except MachError α} {f : α → Except MachError β} {a : α} {b : β} (hx : x = .ok a)
    (hf : f a = .ok b) : x >>= f = .ok b := by
  rw [hx]
  exact hf

theorem resolve_token {o : Source} (h : o.wf = true) : resolve o.token = .ok o := by
  cases o with
  | reg r => exact bind_of_ok (resolveReg_regToken h) rfl
  | mem a => exact bind_of_ok (resolveAddr_addrToken a) rfl
  | imm v =>
    simp only [Source.token, resolve, shapeOf_immToken]
    exact bind_of_ok (resolveImm_immToken v) rfl

theorem resolvePlace_token {p : Place} (h : p.wf = true) : resolvePlace p.token = .ok p := by
  cases p with
  | reg r => exact bind_of_ok (resolveReg_regToken h) rfl
  | mem a => exact bind_of_ok (resolveAddr_addrToken a) rfl

theorem resolveOut_reg {r : Byte} (h : regOk r = true) : resolveOut (regToken r) = .ok (.reg r) :=
  bind_of_ok (resolveReg_regToken h) rfl

theorem resolveOut_imm (v : Byte) : resolveOut (immToken v) = .ok (.imm v) := by
  simp only [resolveOut, shapeOf_immToken]
  exact bind_of_ok (resolveImm_immToken v) rfl

/-- Any token that begins with `[` is kept as it is (log entry 8). -/
theorem resolveOut_addrShaped {tok : Token} (h : tok.head? = some '[') : resolveOut tok = .ok (.addrShaped tok) := by
  simp only [resolveOut, shapeOf_eq_addr_iff.mpr h]

theorem threeRegs_regTokens (f : Byte → Byte → Byte → Instr) {a b c : Byte}
    (h : (regOk a && regOk b && regOk c) = true) :
    threeRegs f (regToken a) (regToken b) (regToken c) = .ok (f a b c) := by
  simp only [Bool.and_eq_true] at h
  obtain ⟨⟨ha, hb⟩, hc⟩ := h
  exact bind_of_ok (resolveReg_regToken ha) <| bind_of_ok (resolveReg_regToken hb) <|
    bind_of_ok (resolveReg_regToken hc) rfl

/-! ### The tokens of an IF -/

theorem stripComma_regToken (r : Byte) : stripComma (regToken r) = regToken r :=
  stripComma_regDigits (writesNumber_decimal r.toNat)

theorem cmpName_mem_operatorNames (op : CmpOp) : cmpName op ∈ operatorNames := by cases op <;> decide

/-- `THEN` has the shape of an immediate, and its first letter is no digit. -/
theorem token_ne_then (o : Source) : o.token ≠ "THEN".toList := by
  cases o with
  | reg r => exact fun h => absurd (List.cons.inj h).1 (by decide)
  | mem a => exact fun h => absurd (List.cons.inj h).1 (by decide)
  | imm v =>
    intro h
    have hT : 'T' ∈ immToken v := by
      rw [show immToken v = "THEN".toList from h]
      decide
    exact absurd (mem_digitChars_of_mem_decimal hT) (by decide)

/-- The first ELSE is the one the encoder wrote (R101). -/
theorem splitClauses_clauseTokens {th : List Token} {el : Option (List Token)} (h : "ELSE".toList ∉ th) :
    splitClauses (clauseTokens th el) = (th, el) := by
  cases el with
  | none => rw [clauseTokens, splitClauses, splitAtKeyword_none h]
  | some ts => rw [clauseTokens, splitClauses, splitAtKeyword_append ts h]

theorem decodeIf_tokens (line : Line) {a : Byte} (op : CmpOp) {o : Source} {th : List Token} {el : Option (List Token)}
    (ha : regOk a = true) (ho : o.wf = true) (hth : "ELSE".toList ∉ th) :
    decodeIf line (regToken a :: cmpName op :: o.token :: "THEN".toList :: clauseTokens th el) =
      .ok (.ifThen line a op o th el) := by
  have hreg : (stripComma (regToken a)).head? = some 'R' := by rw [stripComma_regToken]; rfl
  rw [decodeIf, splitAtKeyword_of_conditionShaped _ hreg (cmpName_mem_operatorNames op) (token_ne_then o)]
  simp only [stripComma_regToken, shapeOf_regToken, cmpOf_cmpName, resolveReg_regToken ha, resolve_token ho,
    splitClauses_clauseTokens hth]
  rfl

/-! ### The decoder reads the tokens back -/

/-- A mnemonic with its own count of tokens is read as its operands. -/
theorem decodeTokens_of_operands {line : Line} {k : Mnemonic} {args : List Token} {i : Instr}
    (hn : arity k = some (args.length + 1)) (h : decodeOperands line (mnemonicName k) k args = .ok i) :
    decodeTokens line (mnemonicName k :: args) = .ok (some i) := by
  rw [decodeTokens, decodeInstr_of_arity line hn, h]

theorem decodeTokens_of_decodeIf {line : Line} {args : List Token} {i : Instr} (h : decodeIf line args = .ok i) :
    decodeTokens line (mnemonicName .ifThen :: args) = .ok (some i) := by
  have hinstr : decodeInstr line (mnemonicName .ifThen) args = decodeIf line args := rfl
  rw [decodeTokens, hinstr, h]

/-- Settles O3: each mnemonic's operands are read back from their tokens, left to right. -/
theorem textDecodeUndoesEncode : Obligations.TextDecodeUndoesEncode := by
  intro line i toks hwf henc hline
  cases i with
  | jump | initReserved | outReserved | clearReserved | verReserved => cases henc
  | load d m =>
    cases henc
    exact decodeTokens_of_operands (k := .load) rfl
      (bind_of_ok (resolveReg_regToken hwf) (bind_of_ok (resolveAddr_addrToken m) rfl))
  | store r m =>
    cases henc
    exact decodeTokens_of_operands (k := .store) rfl
      (bind_of_ok (resolveReg_regToken hwf) (bind_of_ok (resolveAddr_addrToken m) rfl))
  | add a b c => cases henc; exact decodeTokens_of_operands (k := .add) rfl (threeRegs_regTokens .add hwf)
  | and a b c => cases henc; exact decodeTokens_of_operands (k := .and) rfl (threeRegs_regTokens .and hwf)
  | or a b c => cases henc; exact decodeTokens_of_operands (k := .or) rfl (threeRegs_regTokens .or hwf)
  | xor a b c => cases henc; exact decodeTokens_of_operands (k := .xor) rfl (threeRegs_regTokens .xor hwf)
  | nand a b c => cases henc; exact decodeTokens_of_operands (k := .nand) rfl (threeRegs_regTokens .nand hwf)
  | nor a b c => cases henc; exact decodeTokens_of_operands (k := .nor) rfl (threeRegs_regTokens .nor hwf)
  | not a b =>
    cases henc
    obtain ⟨ha, hb⟩ : regOk a = true ∧ regOk b = true := Bool.and_eq_true_iff.mp hwf
    exact decodeTokens_of_operands (k := .not) rfl
      (bind_of_ok (resolveReg_regToken ha) (bind_of_ok (resolveReg_regToken hb) rfl))
  | mov dst src =>
    cases henc
    obtain ⟨hdst, hsrc⟩ : dst.wf = true ∧ src.wf = true := Bool.and_eq_true_iff.mp hwf
    exact decodeTokens_of_operands (k := .mov) rfl
      (bind_of_ok (resolvePlace_token hdst) (bind_of_ok (resolve_token hsrc) rfl))
  | qmov f =>
    cases f with
    | regAddr r a =>
      cases henc
      exact decodeTokens_of_operands (k := .qmov) rfl
        (bind_of_ok (bind_of_ok (resolveReg_regToken hwf) (bind_of_ok (resolveAddr_addrToken a) rfl)) rfl)
    | addrReg a r =>
      cases henc
      exact decodeTokens_of_operands (k := .qmov) rfl
        (bind_of_ok (bind_of_ok (resolveAddr_addrToken a) (bind_of_ok (resolveReg_regToken hwf) rfl)) rfl)
  | init a v =>
    cases henc
    exact decodeTokens_of_operands (k := .init) rfl
      (bind_of_ok (resolveAddr_addrToken a) (bind_of_ok (resolveImm_immToken v) rfl))
  | out t =>
    cases t with
    | reg r => cases henc; exact decodeTokens_of_operands (k := .out) rfl (bind_of_ok (resolveOut_reg hwf) rfl)
    | imm v => cases henc; exact decodeTokens_of_operands (k := .out) rfl (bind_of_ok (resolveOut_imm v) rfl)
    | addrShaped tok =>
      cases henc
      obtain ⟨-, hhead⟩ : tokenOk tok = true ∧ (tok.head? == some '[') = true := Bool.and_eq_true_iff.mp hwf
      exact decodeTokens_of_operands (k := .out) rfl (bind_of_ok (resolveOut_addrShaped (beq_iff_eq.mp hhead)) rfl)
  | clear p => cases henc; exact decodeTokens_of_operands (k := .clear) rfl (bind_of_ok (resolvePlace_token hwf) rfl)
  | ver flag => cases henc; cases flag <;> rfl
  | halt => cases henc; rfl
  | ifThen line' a op o th el =>
    cases henc
    obtain rfl := hline line' rfl
    obtain ⟨ha, ho, hth⟩ : regOk a = true ∧ o.wf = true ∧ "ELSE".toList ∉ th := by
      simp_all [Instr.wf, clausesOk]
    exact decodeTokens_of_decodeIf (decodeIf_tokens line' op ha ho hth)

/-! ### The tokens of an instruction hold no white space and no comment -/

theorem tokenOk_iff {t : Token} : tokenOk t = true ↔ t ≠ [] ∧ ∀ c ∈ t, isWhite c = false ∧ c ≠ ';' := by
  simp only [tokenOk, isWhite, Bool.and_eq_true, List.all_eq_true, Bool.not_eq_true', List.isEmpty_eq_false_iff, ne_eq,
    Bool.or_eq_false_iff, beq_eq_false_iff_ne, bne_iff_ne]

theorem tokenOk_append {t u : Token} (ht : tokenOk t = true) (hu : tokenOk u = true) : tokenOk (t ++ u) = true := by
  rw [tokenOk_iff] at ht hu ⊢
  obtain ⟨hne, ht⟩ := ht
  obtain ⟨-, hu⟩ := hu
  exact ⟨by simp [hne], fun c hc => (List.mem_append.mp hc).elim (ht c) (hu c)⟩

theorem tokenOk_decimal (n : Nat) : tokenOk (decimal n) = true := by
  have hdigits : tokenOk (digitChars 10) = true := by decide
  exact tokenOk_iff.mpr ⟨(writesNumber_decimal n).1,
    fun c hc => (tokenOk_iff.mp hdigits).2 c (mem_digitChars_of_mem_decimal hc)⟩

theorem tokenOk_regToken (r : Byte) : tokenOk (regToken r) = true :=
  tokenOk_append (t := ['R']) (by decide) (tokenOk_decimal _)

theorem tokenOk_addrToken (a : Byte) : tokenOk (addrToken a) = true :=
  tokenOk_append (t := ['[']) (by decide) (tokenOk_append (tokenOk_decimal _) (by decide))

theorem tokenOk_immToken (v : Byte) : tokenOk (immToken v) = true := tokenOk_decimal _

theorem tokenOk_source (o : Source) : tokenOk o.token = true := by
  cases o with
  | reg r => exact tokenOk_regToken r
  | mem a => exact tokenOk_addrToken a
  | imm v => exact tokenOk_immToken v

theorem tokenOk_place (p : Place) : tokenOk p.token = true := by
  cases p with
  | reg r => exact tokenOk_regToken r
  | mem a => exact tokenOk_addrToken a

theorem tokenOk_mnemonicName (k : Mnemonic) : tokenOk (mnemonicName k) = true := by cases k <;> decide

theorem tokenOk_cmpName (op : CmpOp) : tokenOk (cmpName op) = true := by cases op <;> decide

theorem tokenOk_clauseTokens {th : List Token} {el : Option (List Token)} (h : clausesOk th el = true) :
    ∀ t ∈ clauseTokens th el, tokenOk t = true := by
  simp only [clausesOk, Bool.and_eq_true, List.all_eq_true] at h
  obtain ⟨⟨hth, hel⟩, -⟩ := h
  cases el with
  | none => exact hth
  | some ts => exact List.forall_mem_append.mpr ⟨hth, List.forall_mem_cons.mpr ⟨by decide, hel⟩⟩

/-- The tokens of a well-formed instruction are a mnemonic and operands, each of them a token (R88, R89). -/
theorem tokensOk_of_encodeText {i : Instr} {toks : List Token} (hwf : i.wf = true) (henc : encodeText i = some toks) :
    ∃ k args, toks = mnemonicName k :: args ∧ ∀ t ∈ args, tokenOk t = true := by
  cases i with
  | jump | initReserved | outReserved | clearReserved | verReserved => cases henc
  | load r m => cases henc; exact ⟨.load, _, rfl, by simp [tokenOk_regToken, tokenOk_addrToken]⟩
  | store r m => cases henc; exact ⟨.store, _, rfl, by simp [tokenOk_regToken, tokenOk_addrToken]⟩
  | add a b c => cases henc; exact ⟨.add, _, rfl, by simp [tokenOk_regToken]⟩
  | and a b c => cases henc; exact ⟨.and, _, rfl, by simp [tokenOk_regToken]⟩
  | or a b c => cases henc; exact ⟨.or, _, rfl, by simp [tokenOk_regToken]⟩
  | xor a b c => cases henc; exact ⟨.xor, _, rfl, by simp [tokenOk_regToken]⟩
  | nand a b c => cases henc; exact ⟨.nand, _, rfl, by simp [tokenOk_regToken]⟩
  | nor a b c => cases henc; exact ⟨.nor, _, rfl, by simp [tokenOk_regToken]⟩
  | not a b => cases henc; exact ⟨.not, _, rfl, by simp [tokenOk_regToken]⟩
  | mov p o => cases henc; exact ⟨.mov, _, rfl, by simp [tokenOk_place, tokenOk_source]⟩
  | qmov f => cases f <;> cases henc <;> exact ⟨.qmov, _, rfl, by simp [tokenOk_regToken, tokenOk_addrToken]⟩
  | init a v => cases henc; exact ⟨.init, _, rfl, by simp [tokenOk_addrToken, tokenOk_immToken]; decide⟩
  | out t =>
    cases t with
    | reg r => cases henc; exact ⟨.out, _, rfl, by simp [tokenOk_regToken]⟩
    | imm v => cases henc; exact ⟨.out, _, rfl, by simp [tokenOk_immToken]⟩
    | addrShaped tok =>
      cases henc
      obtain ⟨htok, -⟩ : tokenOk tok = true ∧ (tok.head? == some '[') = true := Bool.and_eq_true_iff.mp hwf
      exact ⟨.out, _, rfl, by simpa using htok⟩
  | clear p => cases henc; exact ⟨.clear, _, rfl, by simp [tokenOk_place]⟩
  | ver flag => cases henc; exact ⟨.ver, _, rfl, by cases flag <;> decide⟩
  | halt => cases henc; exact ⟨.halt, _, rfl, nofun⟩
  | ifThen line a op o th el =>
    cases henc
    have hclauses : clausesOk th el = true := (Bool.and_eq_true_iff.mp hwf).2
    refine ⟨.ifThen, _, rfl, ?_⟩
    simp only [List.forall_mem_cons]
    exact ⟨tokenOk_regToken a, tokenOk_cmpName op, tokenOk_source o, by decide, tokenOk_clauseTokens hclauses⟩

/-! ### A line is cut into its tokens -/

/-- Characters that are no white space are read into the current token. -/
theorem splitTokens_append {t : Token} (h : ∀ c ∈ t, isWhite c = false) (rest acc : List Char) :
    splitTokens (t ++ rest) acc = splitTokens rest (t.reverse ++ acc) := by
  induction t generalizing acc with
  | nil => rfl
  | cons c cs ih =>
    obtain ⟨hc, hcs⟩ := List.forall_mem_cons.mp h
    simp only [List.cons_append, splitTokens, hc, Bool.false_eq_true, if_false, ih hcs, List.reverse_cons,
      List.append_assoc, List.nil_append]

/-- A finished token stands in front of the rest. -/
theorem flushToken_reverse {t : Token} (h : t ≠ []) (rest : List Token) : flushToken t.reverse rest = t :: rest := by
  rw [flushToken, if_neg (by simpa using h), List.reverse_reverse]

theorem splitTokens_unwords {toks : List Token} (h : ∀ t ∈ toks, tokenOk t = true) :
    splitTokens (unwords toks) [] = toks := by
  induction toks with
  | nil => rfl
  | cons t ts ih =>
    obtain ⟨ht, hts⟩ := List.forall_mem_cons.mp h
    obtain ⟨hne, hchars⟩ := tokenOk_iff.mp ht
    have hwhite : ∀ c ∈ t, isWhite c = false := fun c hc => (hchars c hc).1
    cases ts with
    | nil =>
      have hread := splitTokens_append hwhite [] []
      rw [List.append_nil, List.append_nil] at hread
      exact hread.trans (flushToken_reverse hne [])
    | cons u us =>
      calc splitTokens (t ++ ' ' :: unwords (u :: us)) []
        _ = flushToken t.reverse (splitTokens (unwords (u :: us)) []) := by
          rw [splitTokens_append hwhite, List.append_nil]
          rfl
        _ = t :: u :: us := by rw [ih hts, flushToken_reverse hne]

theorem ne_semicolon_of_mem_unwords {toks : List Token} (h : ∀ t ∈ toks, tokenOk t = true) :
    ∀ c ∈ unwords toks, c ≠ ';' := by
  induction toks with
  | nil => nofun
  | cons t ts ih =>
    obtain ⟨ht, hts⟩ := List.forall_mem_cons.mp h
    have hchars : ∀ c ∈ t, c ≠ ';' := fun c hc => ((tokenOk_iff.mp ht).2 c hc).2
    cases ts with
    | nil => exact hchars
    | cons u us => exact List.forall_mem_append.mpr ⟨hchars, List.forall_mem_cons.mpr ⟨by decide, ih hts⟩⟩

/-- A line of tokens is cut into these tokens (R88, R89). -/
theorem tokenise_unwords {toks : List Token} (h : ∀ t ∈ toks, tokenOk t = true) : tokenise (unwords toks) = toks := by
  have hstrip : stripComment (unwords toks) = unwords toks :=
    List.takeWhile_eq_self_iff.mpr fun c hc => by simpa using ne_semicolon_of_mem_unwords h c hc
  rw [tokenise, hstrip, splitTokens_unwords h]

/-- Settles O4: the line is cut into the instruction's tokens, which are read back as the instruction. -/
theorem textLineRunsItsInstruction : Obligations.TextLineRunsItsInstruction := by
  intro i toks s hwf henc hline
  obtain ⟨k, args, htoks, hargs⟩ := tokensOk_of_encodeText hwf henc
  have hall : ∀ t ∈ toks, tokenOk t = true := htoks ▸ List.forall_mem_cons.mpr ⟨tokenOk_mnemonicName k, hargs⟩
  exact execText_of_decode s (tokenise_unwords hall) (textDecodeUndoesEncode (unwords toks) i toks hwf henc hline)

/-! ### Text and binary -/

/-- Settles O49: both run the same instruction from the same state; the binary step adds the advance of `pc`. -/
theorem textAndBinaryAgree : Obligations.TextAndBinaryAgree := by
  intro s t i slot toks hwf henc htext hslot h
  have hdecode : decode slot = .ok i := List.append_nil slot ▸ decodeUndoesEncode i slot [] henc
  have hfetch := fetchInstr_of_bytesAt hslot hdecode
  have hline : i.carriedLine = none := carriedLine_of_encode (by rw [henc]; nofun)
  have hjump : isJump i = false := by
    cases i with
    | jump a => cases htext
    | _ => rfl
  obtain ⟨u, hu, ht⟩ := advancePc_next ((stepBinary_of_fetch hfetch).symm.trans h)
  refine ⟨u, ?_, ?_⟩
  · rw [textLineRunsItsInstruction i toks s hwf htext (by rw [hline]; nofun), hu]
  · have hpc := stepBinary_pc_of_not_jump hfetch hjump h
    have hupc : u.pc = s.pc := (exec_ignoresPc hjump).pc_eq hu
    obtain rfl | ⟨-, -, rfl⟩ := ht
    · exact ⟨rfl, rfl, rfl, rfl, rfl, rfl, hupc, hpc⟩
    · exact ⟨rfl, rfl, rfl, rfl, rfl, rfl, hupc, hpc⟩

end Sys2Proof.Machine
